-- ==== Sys2Proof/Word.lean ====
section
/-! DEFINITION. The machine's words: the 4-bit word of every transfer and register, and the 5-bit result. -/

namespace Sys2Proof

/-- The one unit of data and of memory: a 4-bit unsigned word (R5 `DATA_W`, R31). Bit 0 is the least significant (R7). -/
abbrev Word := BitVec 4

/-- The width of the `result` register: bit 4 the carry, bits 3..0 the value (R5 `RESULT_W`, R14). -/
abbrev Result := BitVec 5

end Sys2Proof
end

