-- ==== Sys2Proof/Config.lean ====
section
/-! DEFINITION. The machine's parameters: the fixed ones of R5, and the open ones of R6 as opaque constants with
no body, so that no proof can learn a value the spec does not give. -/

namespace Sys2Proof.Config

/-- Opcode of OR (R5, R49). UNVERIFIED: an unaudited literal (D17, log entry 8). -/
def opcOr : Word := 0x4#4

/-- Opcode of XOR (R5, R49). UNVERIFIED: an unaudited literal (D17, log entry 8). -/
def opcXor : Word := 0x7#4

/-- Opcode of ADD (R5, R49). UNVERIFIED: an unaudited literal (D17, log entry 8). -/
def opcAdd : Word := 0xA#4

/-- What R6 demands of a value for the parameter `OPC_AND`: none of 0x4, 0x7, 0xA. -/
abbrev AdmissibleAnd (p : Word) : Prop := p ≠ opcOr ∧ p ≠ opcXor ∧ p ≠ opcAdd

/-- The 13 values R6 admits for `OPC_AND`, in rising order: 0 to 3, 5, 6, 8, 9, B to F. -/
def andCandidate (i : Fin 13) : Word :=
  if i.val < 4 then BitVec.ofNat 4 i.val
  else if i.val < 6 then BitVec.ofNat 4 (i.val + 1)
  else if i.val < 8 then BitVec.ofNat 4 (i.val + 2)
  else BitVec.ofNat 4 (i.val + 3)

/-- Which of the 13 admissible values this machine's AND has: the spec gives none (R6, D1). Log entry 2. -/
opaque andChoice : Fin 13

/-- The open parameter `OPC_AND` (R6). DESIGN CHOICE in form only: one unknown admissible value (log entry 2). -/
def opcAnd : Word := andCandidate andChoice

/-- The first word of the machine's program, `PROG[0]` (R6: no default). Log entry 3. -/
opaque progFirst : Word

/-- The program's further words, `PROG[1]` on; their number is open too, so `PROG_LEN >= 1` (R6). Log entry 3. -/
opaque progRest : List Word

end Sys2Proof.Config
end

