-- ==== Sys2Proof/Syntax.lean ====
section
/-! DEFINITION. The instruction set as syntax: one constructor per row of the opcode table (R49, R50). -/

namespace Sys2Proof

/-- An instruction of the one format N3 (R45, R46). Both operands are unsigned 4-bit immediates (R53). -/
inductive Instr where
  /-- `OR a, b` (R61). -/
  | or (a b : Word)
  /-- `AND a, b` (R62). -/
  | and (a b : Word)
  /-- `XOR a, b` (R63). -/
  | xor (a b : Word)
  /-- `ADD a, b` (R64). -/
  | add (a b : Word)
  /-- `.op op, a, b`: an instruction whose opcode selects no operation (R50, R65). -/
  | unrecognised (op a b : Word)
  deriving DecidableEq, Repr

end Sys2Proof
end

