-- ==== Sys2Proof/WellFormed.lean ====
section
/-! DEFINITION. Which instruction terms stand for instructions of the machine. The operands are 4-bit by type, so
the one check is on the opcode an `unrecognised` term carries (R50). -/

namespace Sys2Proof

/-- `op` selects one of the four operations, for the parameter value `p` of `OPC_AND` (R49, R60 `valid`). -/
def recognisedWith (p op : Word) : Bool :=
  op == Config.opcOr || op == p || op == Config.opcXor || op == Config.opcAdd

/-- `op` is a recognised opcode of this machine (R49). -/
def recognised (op : Word) : Bool := recognisedWith Config.opcAnd op

/-- Well-formedness for the parameter value `p` of `OPC_AND`: an unrecognised instruction's opcode is none of the
four recognised values (R50). -/
def Instr.wfWith (p : Word) : Instr → Bool
  | .or _ _ => true
  | .and _ _ => true
  | .xor _ _ => true
  | .add _ _ => true
  | .unrecognised op _ _ => !recognisedWith p op

/-- Well-formedness on this machine (R50). -/
def Instr.wf (i : Instr) : Bool := i.wfWith Config.opcAnd

end Sys2Proof
end

