-- ==== Sys2Proof/Decode.lean ====
section
/-! DEFINITION. The decoder of R54, total on every three words, the encoder of R46 and R49, their forms over a
stream of words, the 12-bit packing of R47, and the assembler's text of R52. `…With p` takes the open parameter
`OPC_AND` as an argument, as R6 and D1 ask; the plain names use this machine's `Config.opcAnd`. -/

namespace Sys2Proof

/-- The decoder of R54 for the parameter value `p` of `OPC_AND`: total, no pattern is invalid. -/
def decodeWith (p op a b : Word) : Instr :=
  if op = Config.opcOr then .or a b
  else if op = Config.opcXor then .xor a b
  else if op = Config.opcAdd then .add a b
  else if op = p then .and a b
  else .unrecognised op a b

/-- The machine's decoder (R54). -/
def decode (op a b : Word) : Instr := decodeWith Config.opcAnd op a b

/-- Why a list of words holds no instruction at its head. Not an event of the machine, whose stream never ends
(R91): log entry 20. -/
inductive DecodeError where
  /-- Fewer than the three words every instruction has (R45). -/
  | truncated
  deriving DecidableEq, Repr

/-- Decode the instruction at the head of a list of program words: word 0 the opcode, word 1 operand A, word 2
operand B (R46); answer it with the words after it. -/
def decodeStreamWith (p : Word) : List Word → Except DecodeError (Instr × List Word)
  | op :: a :: b :: rest => .ok (decodeWith p op a b, rest)
  | _ => .error .truncated

/-- `decodeStreamWith` on this machine. -/
def decodeStream (ws : List Word) : Except DecodeError (Instr × List Word) := decodeStreamWith Config.opcAnd ws

/-- The opcode word of an instruction (R49). -/
def Instr.opWith (p : Word) : Instr → Word
  | .or _ _ => Config.opcOr
  | .and _ _ => p
  | .xor _ _ => Config.opcXor
  | .add _ _ => Config.opcAdd
  | .unrecognised op _ _ => op

/-- Operand A, the second word (R46). -/
def Instr.opndA : Instr → Word
  | .or a _ => a
  | .and a _ => a
  | .xor a _ => a
  | .add a _ => a
  | .unrecognised _ a _ => a

/-- Operand B, the third word (R46). -/
def Instr.opndB : Instr → Word
  | .or _ b => b
  | .and _ b => b
  | .xor _ b => b
  | .add _ b => b
  | .unrecognised _ _ b => b

/-- The three words of an instruction, in ascending index order (R46, R33). -/
def encodeWith (p : Word) (i : Instr) : List Word := [i.opWith p, i.opndA, i.opndB]

/-- The three words of an instruction of this machine. -/
def encode (i : Instr) : List Word := encodeWith Config.opcAnd i

/-- A program's words: those of its instructions one after the other, from index 0 (R52). -/
def assembleWith (p : Word) (is : List Instr) : List Word := is.flatMap (encodeWith p)

/-- `assembleWith` on this machine. -/
def assemble (is : List Instr) : List Word := assembleWith Config.opcAnd is

/-- The 12-bit packing `{op, a, b}` of R47: word 0 in bits 11..8, word 1 in bits 7..4, word 2 in bits 3..0. -/
def pack12 (op a b : Word) : BitVec 12 := op ++ a ++ b

/-- Word 0 of a packed instruction, bits 11..8 (R47). -/
def unpackOp (w : BitVec 12) : Word := w.extractLsb' 8 4

/-- Word 1 of a packed instruction, bits 7..4 (R47). -/
def unpackA (w : BitVec 12) : Word := w.extractLsb' 4 4

/-- Word 2 of a packed instruction, bits 3..0 (R47). -/
def unpackB (w : BitVec 12) : Word := w.extractLsb' 0 4

/-- The packed instruction a number of `nbits` bits stands for, numbered as spec/opcode_table.json numbers it: the
12-bit `{op, a, b}` of R47, bit 0 the least significant bit of operand B's word. Bits above `nbits` are 0; a
number with a bit set above bit 11 is no instruction. Log entry 5. -/
def tableWord (nbits w : Nat) : Option (BitVec 12) :=
  let v := w % 2 ^ nbits
  if v < 4096 then some (BitVec.ofNat 12 v) else none

/-- The instruction the decoder reads from an instruction word numbered as the opcode table numbers it. -/
def decodeTableWord (nbits w : Nat) : Option Instr :=
  (tableWord nbits w).map fun v => decode (unpackOp v) (unpackA v) (unpackB v)

/-- The hexadecimal digits by value (R52 `hexdigit`). -/
def hexDigits : List Char := ['0', '1', '2', '3', '4', '5', '6', '7', '8', '9', 'A', 'B', 'C', 'D', 'E', 'F']

/-- One hexadecimal digit, as the source writes it: a capital letter above 9. -/
def hexDigit (w : Word) : Char := hexDigits.getD w.toNat '0'

/-- The value of a hexadecimal digit; a character that is none has no value. -/
def hexValue (c : Char) : Option Word :=
  if c ∈ hexDigits then some (BitVec.ofNat 4 (hexDigits.idxOf c)) else none

/-- An immediate as the assembler writes it (R52 `imm4`). -/
def imm4Text (w : Word) : List Char := ['0', 'x', hexDigit w]

/-- The two operands of an instruction's text: operand A first (R52). -/
def operandsText (a b : Word) : List Char := imm4Text a ++ [',', ' '] ++ imm4Text b

/-- An instruction's text in the syntax of R52. Notation, not hardware (D10, log entry 12). -/
def Instr.chars : Instr → List Char
  | .or a b => ['O', 'R', ' '] ++ operandsText a b
  | .and a b => ['A', 'N', 'D', ' '] ++ operandsText a b
  | .xor a b => ['X', 'O', 'R', ' '] ++ operandsText a b
  | .add a b => ['A', 'D', 'D', ' '] ++ operandsText a b
  | .unrecognised op a b => ['.', 'o', 'p', ' '] ++ imm4Text op ++ [',', ' '] ++ operandsText a b

/-- Read an immediate (R52 `imm4`) at the head of a text; answer it with the rest. -/
def parseImm4 : List Char → Option (Word × List Char)
  | '0' :: 'x' :: c :: rest => (hexValue c).map fun w => (w, rest)
  | _ => none

/-- Read `imm4 "," SP imm4` and the end of the text (R52). -/
def parseOperands (cs : List Char) : Option (Word × Word) :=
  match parseImm4 cs with
  | some (a, ',' :: ' ' :: rest) =>
    match parseImm4 rest with
    | some (b, []) => some (a, b)
    | _ => none
  | _ => none

/-- Read one instruction in the syntax of R52. `.op` takes an unrecognised opcode only. -/
def parseInstrWith (p : Word) : List Char → Option Instr
  | 'O' :: 'R' :: ' ' :: cs => (parseOperands cs).map fun r => .or r.1 r.2
  | 'A' :: 'N' :: 'D' :: ' ' :: cs => (parseOperands cs).map fun r => .and r.1 r.2
  | 'X' :: 'O' :: 'R' :: ' ' :: cs => (parseOperands cs).map fun r => .xor r.1 r.2
  | 'A' :: 'D' :: 'D' :: ' ' :: cs => (parseOperands cs).map fun r => .add r.1 r.2
  | '.' :: 'o' :: 'p' :: ' ' :: cs =>
    match parseImm4 cs with
    | some (op, ',' :: ' ' :: rest) =>
      if recognisedWith p op then none else (parseOperands rest).map fun r => .unrecognised op r.1 r.2
    | _ => none
  | _ => none

/-- `parseInstrWith` on this machine. -/
def parseInstr (cs : List Char) : Option Instr := parseInstrWith Config.opcAnd cs

end Sys2Proof
end

