-- ==== Sys2Proof/Machine/Memory.lean ====
section
/-! DEFINITION. The program memory (R30, R95): a non-empty sequence of 4-bit words, read only, held as plain data in
one canonical form. -/

namespace Sys2Proof.Machine

/-- The program memory `PROG` of `PROG_LEN` words. The unit is the 4-bit word, since there are no bytes (R31).
`lastIndex` is `PROG_LEN - 1`, so that a memory of no words cannot be written down (R100, D14). `cells` lists the
words other than 0x0 by index, indices rising, and an index that is not listed holds the word 0x0: a way of writing
the sequence, not a claim about memory that was never written (log entry 1). -/
structure Memory where
  lastIndex : Nat
  cells : List (Nat × Word)
  deriving DecidableEq, Repr

/-- The word of a program index that `cells` does not list (log entry 1). -/
def Memory.unlisted : Word := 0x0#4

/-- `PROG_LEN` (R6). -/
def Memory.progLen (m : Memory) : Nat := m.lastIndex + 1

/-- `PROG_LEN >= 1` (R6, R100). -/
theorem Memory.progLen_pos (m : Memory) : 0 < m.progLen := Nat.succ_pos _

/-- The program index `n mod PROG_LEN`: counting `n` words along the program, which is an endless loop (R32, R92). -/
def Memory.index (m : Memory) (n : Nat) : Fin m.progLen := ⟨n % m.progLen, Nat.mod_lt n m.progLen_pos⟩

/-- The word a list of cells gives an index. -/
def lookupCell : List (Nat × Word) → Nat → Word
  | [], _ => Memory.unlisted
  | (k, w) :: cs, i => if k = i then w else lookupCell cs i

/-- `MemRead(i, 1) = PROG[i]` (R7, R30). Every index the machine forms is below `PROG_LEN` (R32, R36). -/
def Memory.read (m : Memory) (i : Nat) : Word := lookupCell m.cells i

/-- The canonical form of a list of cells: indices rising from `lo`, none above `last`, no word that an unlisted
index reads as. -/
def cellsWf (last : Nat) : Nat → List (Nat × Word) → Bool
  | _, [] => true
  | lo, (k, w) :: cs => decide (lo ≤ k) && decide (k ≤ last) && decide (w ≠ Memory.unlisted) && cellsWf last (k + 1) cs

/-- The canonical form of a memory. -/
def Memory.wf (m : Memory) : Bool := cellsWf m.lastIndex 0 m.cells

/-- The cells of a run of words that begins at index `i`. -/
def cellsFrom : Nat → List Word → List (Nat × Word)
  | _, [] => []
  | i, w :: ws => if w = Memory.unlisted then cellsFrom (i + 1) ws else (i, w) :: cellsFrom (i + 1) ws

/-- The memory whose words are `first`, then those of `rest`, from index 0. -/
def Memory.ofWords (first : Word) (rest : List Word) : Memory :=
  { lastIndex := rest.length, cells := cellsFrom 0 (first :: rest) }

/-- `mask4`: the low 4 bits of a wider integer (R7, R100). -/
def mask4 (n : Nat) : Word := BitVec.ofNat 4 (n % 16)

/-- Construction of the program memory from a list of integers (R100): the empty list is a configuration error and
gives no machine (R118, log entry 13); every element keeps its low 4 bits. -/
def Memory.construct : List Nat → Option Memory
  | [] => none
  | x :: xs => some (Memory.ofWords (mask4 x) (xs.map mask4))

/-- `first()` (R96): the word at index 0. It reads nothing else, writes nothing and reports no wraparound. -/
def Memory.first (m : Memory) : Word := m.read 0

end Sys2Proof.Machine
end

