-- ==== Sys2Proof/Machine/State.lean ====
section
/-! DEFINITION. The state of the machine (R10), its reset (R23, R130), and the reasons a step could stop: the
machine has none (R110, D11). -/

namespace Sys2Proof.Machine

/-- The seven registers of R10, and the program memory, which the spec makes an immutable parameter of the machine
(R6) and no step changes. -/
structure State where
  /-- The program memory `PROG` (R30). -/
  mem : Memory
  /-- The word on the bus: a register, the one word of lookahead (R11). -/
  bus : Word
  /-- The latched operation selector (R12). -/
  opcode : Word
  /-- The latched first ALU input (R13). -/
  operandA : Word
  /-- The latched second ALU input (R13). -/
  operandB : Word
  /-- The ALU output: bit 4 the carry, bits 3..0 the value (R14, R15). -/
  result : Result
  /-- The free-running modulo-8 cycle counter (R16). -/
  cycle : BitVec 3
  /-- The program counter: the index of the word that is on the bus (R17). Its type is R19's and D2's: a state whose
  cursor is not below `PROG_LEN` cannot be built. -/
  cursor : Fin mem.progLen
  deriving DecidableEq, Repr

/-- The reasons a step stops with a fault. There is no constructor: "The machine raises no synchronous exception"
(R110), and `Step` "needs neither a fault outcome nor a refusal outcome". DEDUCED, log entry 14. -/
inductive Fault where
  deriving DecidableEq, Repr

/-- The reasons a step refuses. -/
inductive Refusal where
  /-- An instruction that has no meaning in `exec` yet. Raised by an arm of `exec` only. No arm raises it in this
  model: every row of the opcode table has its meaning. Safe: the machine stops where the hardware goes on. -/
  | notModelled (mnemonic : String)
  deriving DecidableEq, Repr

/-- Part 1 of `Reset` (R130): power-on reset, every register zero. No `Step` runs in this state (R132, D7). -/
def State.powerOn (m : Memory) : State :=
  { mem := m, bus := 0#4, opcode := 0#4, operandA := 0#4, operandB := 0#4, result := 0#5, cycle := 0#3,
    cursor := ⟨0, m.progLen_pos⟩ }

/-- Part 2 of `Reset` (R130): priming, `bus <- first()`; the cursor does not move (R96). -/
def State.prime (s : State) : State := { s with bus := s.mem.first }

/-- `Reset()` of the machine whose program is `m` (R130); it depends on nothing else. -/
def State.resetWith (m : Memory) : State := (State.powerOn m).prime

/-- The machine right after reset (R23). Its program is the open parameter `PROG` (R6), of which the model knows
nothing (log entry 3). -/
def State.reset : State := State.resetWith (Memory.ofWords Config.progFirst Config.progRest)

end Sys2Proof.Machine
end

