-- ==== Sys2Proof/Machine/Ops.lean ====
section
/-! DEFINITION. The named operations over registers and the program source. The machine takes no exception and
returns from none (R110, R114, R115), so there is no operation for either. -/

namespace Sys2Proof.Machine

/-- `bus <- v` (R7). -/
def State.setBus (s : State) (v : Word) : State := { s with bus := v }
/-- `opcode <- v` (R7). -/
def State.setOpcode (s : State) (v : Word) : State := { s with opcode := v }
/-- `operandA <- v` (R7). -/
def State.setOperandA (s : State) (v : Word) : State := { s with operandA := v }
/-- `operandB <- v` (R7). -/
def State.setOperandB (s : State) (v : Word) : State := { s with operandB := v }
/-- `result <- v` (R7). -/
def State.setResult (s : State) (v : Result) : State := { s with result := v }
/-- `cycle <- v` (R7). -/
def State.setCycle (s : State) (v : BitVec 3) : State := { s with cycle := v }
/-- `cursor <- n mod PROG_LEN` (R7, R17): no other index can be formed (R36). -/
def State.setCursor (s : State) (n : Nat) : State := { s with cursor := s.mem.index n }

/-- The advance of `next()`: `cursor <- (cursor + 1) mod PROG_LEN` (R97). -/
def State.advanceCursor (s : State) : State := s.setCursor (s.cursor.val + 1)

/-- The `wrapped` result of `next()`: the cursor stands at `PROG_LEN - 1` before the advance (R97, R98). -/
def State.nextWraps (s : State) : Bool := s.cursor.val == s.mem.progLen - 1

/-- `next()` (R97): advance the cursor, then read the word at the NEW cursor. Answers the state, the word and the
`wrapped` signal. -/
def State.next (s : State) : State × Word × Bool :=
  (s.advanceCursor, s.advanceCursor.mem.read s.advanceCursor.cursor, s.nextWraps)

/-- A bus refill, `bus <- next().value`, with the call's `wrapped` signal (R9, R11). -/
def State.refill (s : State) : State × Bool :=
  let r := s.next
  (r.1.setBus r.2.1, r.2.2)

/-- `opcode <- bus` (R12). The latch checks nothing. -/
def State.latchOpcode (s : State) : State := s.setOpcode s.bus

/-- `operandA <- bus` (R13). -/
def State.latchOperandA (s : State) : State := s.setOperandA s.bus

/-- `operandB <- bus` (R13). -/
def State.latchOperandB (s : State) : State := s.setOperandB s.bus

/-- The ClockDriver's advance, `cycle <- (cycle + 1) mod 8` (R16, R83): 3-bit addition wraps 7 to 0. -/
def State.advanceCycle (s : State) : State := s.setCycle (s.cycle + 1#3)

/-- The external event Reset on a running machine: the reset state of the same program, whatever the registers held
(R130, D15). No tick contains it. Log entry 11. -/
def State.resetEvent (s : State) : State := State.resetWith s.mem

/-- A program of the one instruction `op`, `a`, `b` loaded from outside, brought to its execute cycle: the program
memory, cursor, bus, latches and cycle are those after seven ticks from reset; `result` is left. Log entry 6. -/
def State.loadAtExecute (s : State) (op a b : Word) : State :=
  { s with mem := Memory.ofWords op [a, b], bus := op, opcode := op, operandA := a, operandB := b,
           cycle := 7#3, cursor := ⟨0, (Memory.ofWords op [a, b]).progLen_pos⟩ }

/-- Apply a function to the state of an outcome that is a next state; a stop stays as it is. -/
def mapNext (f : State → State) : Host.Outcome State Fault Refusal → Host.Outcome State Fault Refusal
  | .next t => .next (f t)
  | .fault r => .fault r
  | .refused r => .refused r

end Sys2Proof.Machine
end

