-- ==== Sys2Proof/Machine/Operands.lean ====
section
/-! DEFINITION. The one operand form of the machine: 4-bit unsigned immediates from the instruction stream, latched
in `operandA` and `operandB` (R46, R53). -/

namespace Sys2Proof.Machine

/-- `zext_5`: a word as a 5-bit value of the same number, bit 4 zero (R7, R53). -/
def zext5 (w : Word) : Result := w.setWidth 5

/-- The instruction the three latched words stand for: the decode the hardware does once, at cycle 7, on the
latched `opcode` (R54, R82). -/
def State.latched (s : State) : Instr := decode s.opcode s.operandA s.operandB

end Sys2Proof.Machine
end

