-- ==== Sys2Proof/Machine/Flags.lean ====
section
/-! DEFINITION. The one status flag: the carry, bit 4 of `result` (R15). No other flag exists, and nothing in the
machine reads this one. -/

namespace Sys2Proof.Machine

/-- `carry = result[4]` (R15). -/
def carryOf (r : Result) : Bool := r.getLsbD 4

/-- `value = result[3:0]` (R15). -/
def valueOf (r : Result) : Word := r.extractLsb' 0 4

/-- `{carry, value}` (R15). -/
def packResult (carry : Bool) (value : Word) : Result := BitVec.ofBool carry ++ value

/-- The carry bit of a state (R15). -/
def State.carry (s : State) : Bool := carryOf s.result

/-- The 4-bit value of a state's result (R15). -/
def State.value (s : State) : Word := valueOf s.result

end Sys2Proof.Machine
end

