-- ==== Sys2Proof/Machine/Alu.lean ====
section
/-! DEFINITION. The arithmetic-logic unit (R60) and the meaning of each instruction: what cycle 7 does with it
(R82). The fetch, which is the same for all five, is in Sequencer.lean. -/

namespace Sys2Proof.Machine

/-- `{0, a | b}` (R61): the carry is written 0. -/
def orResult (a b : Word) : Result := packResult false (a ||| b)

/-- `{0, a & b}` (R62): the carry is written 0. -/
def andResult (a b : Word) : Result := packResult false (a &&& b)

/-- `{0, a ^ b}` (R63): the carry is written 0. -/
def xorResult (a b : Word) : Result := packResult false (a ^^^ b)

/-- `zext_5(a) + zext_5(b)` (R64): exact, at most 30, bit 4 the carry-out. -/
def addResult (a b : Word) : Result := zext5 a + zext5 b

/-- The ALU of R60 for the parameter value `p` of `OPC_AND`: `(valid, y)`. When `valid` is false no rule reads `y`
(R60, I8, log entry 16). -/
def aluWith (p op a b : Word) : Bool × Result :=
  if op = Config.opcOr then (true, orResult a b)
  else if op = p then (true, andResult a b)
  else if op = Config.opcXor then (true, xorResult a b)
  else if op = Config.opcAdd then (true, addResult a b)
  else (false, 0#5)

/-- The ALU of this machine (R60). -/
def alu (op a b : Word) : Bool × Result := aluWith Config.opcAnd op a b

/-- OR at cycle 7 (R61, R82). -/
def execOr (a b : Word) (s : State) : Host.Outcome State Fault Refusal := .next (s.setResult (orResult a b))

/-- AND at cycle 7 (R62, R82). -/
def execAnd (a b : Word) (s : State) : Host.Outcome State Fault Refusal := .next (s.setResult (andResult a b))

/-- XOR at cycle 7 (R63, R82). -/
def execXor (a b : Word) (s : State) : Host.Outcome State Fault Refusal := .next (s.setResult (xorResult a b))

/-- ADD at cycle 7 (R64, R82). -/
def execAdd (a b : Word) (s : State) : Host.Outcome State Fault Refusal := .next (s.setResult (addResult a b))

/-- An unrecognised opcode at cycle 7 (R65, R82): `result` holds, value and carry, and nothing traps (R111). -/
def execUnrecognised (_op _a _b : Word) (s : State) : Host.Outcome State Fault Refusal := .next s

end Sys2Proof.Machine
end

