-- ==== Sys2Proof/Machine/Dispatch.lean ====
section
/-! DEFINITION. Which meaning each instruction has: one arm per constructor. `exec` is the action of cycle 7 (R82,
log entry 15). -/

namespace Sys2Proof.Machine

def exec (i : Instr) (s : State) : Host.Outcome State Fault Refusal :=
  match i with
  | .or a b => Sys2Proof.Machine.execOr a b s
  | .and a b => Sys2Proof.Machine.execAnd a b s
  | .xor a b => Sys2Proof.Machine.execXor a b s
  | .add a b => Sys2Proof.Machine.execAdd a b s
  | .unrecognised op a b => Sys2Proof.Machine.execUnrecognised op a b s

end Sys2Proof.Machine
end

