-- ==== Sys2Proof/Machine/Sequencer.lean ====
section
/-! DEFINITION. The execution state machine: the action of each cycle (R76 to R82), `Step` (R75), `Tick` (R83). -/

namespace Sys2Proof.Machine

/-- Cycle 1 (R77): `opcode <- bus`, then refill. The latch sees the bus as it stood before the refill (R84). -/
def fetchOpcode (s : State) : State × Bool := s.latchOpcode.refill

/-- Cycle 3 (R79): `operandA <- bus`, then refill. -/
def fetchOperandA (s : State) : State × Bool := s.latchOperandA.refill

/-- Cycle 4 (R80): `operandB <- bus`, then refill. -/
def fetchOperandB (s : State) : State × Bool := s.latchOperandB.refill

/-- `Step` (R75): the action of the current cycle and nothing else, with the `wrapped` output (R87). It never
changes `cycle`. -/
def engineStep (s : State) : Host.Outcome State Fault Refusal × Bool :=
  match s.cycle.toFin with
  | 0 => (.next s, false)
  | 1 => (.next (fetchOpcode s).1, (fetchOpcode s).2)
  | 2 => (.next s, false)
  | 3 => (.next (fetchOperandA s).1, (fetchOperandA s).2)
  | 4 => (.next (fetchOperandB s).1, (fetchOperandB s).2)
  | 5 => (.next s, false)
  | 6 => (.next s, false)
  | 7 => (exec s.latched s, false)

/-- `Tick` (R83): one `Step`, then the unconditional cycle advance, with the `wrapped` output of the `Step`. -/
def tick (s : State) : Host.Outcome State Fault Refusal × Bool :=
  (mapNext State.advanceCycle (engineStep s).1, (engineStep s).2)

end Sys2Proof.Machine
end

