-- ==== Sys2Proof/Machine/Step.lean ====
section
/-! DEFINITION. The transition of the machine, one `Tick` (R83, D3), runs of it, and the load of one instruction. -/

namespace Sys2Proof.Machine

/-- One `Tick` of the block and its ClockDriver (R83). Log entry 4. -/
def step (s : State) : Host.Outcome State Fault Refusal := (tick s).1

/-- The `wrapped` output of the tick that starts in `s` (R87): an output, not state (R21). Log entry 7. -/
def wrapped (s : State) : Bool := (tick s).2

/-- `n` ticks. -/
def ticks : Nat → State → Host.Outcome State Fault Refusal
  | 0, s => .next s
  | n + 1, s =>
    match step s with
    | .next t => ticks n t
    | .fault r => .fault r
    | .refused r => .refused r

/-- The observable trace of `n` ticks: for each, the state after it and its `wrapped` output (D19). -/
def trace : Nat → State → List (State × Bool)
  | 0, _ => []
  | n + 1, s =>
    match step s with
    | .next t => (t, wrapped s) :: trace n t
    | .fault _ => []
    | .refused _ => []

/-- One whole instruction: the eight ticks from cycle 0 to cycle 0 (R90). -/
def runInstruction (s : State) : Host.Outcome State Fault Refusal := ticks 8 s

/-- The instruction word `w`, numbered as the opcode table numbers it, loaded so that the very next `step` runs it:
the program memory holds its three words and the machine stands at its execute cycle, where `step` takes its
instruction from the latched words. A number that is no instruction word loads nothing. Log entries 3, 5 and 6. -/
def State.withFetchWord (s : State) (nbits w : Nat) : State :=
  match tableWord nbits w with
  | some v => s.loadAtExecute (unpackOp v) (unpackA v) (unpackB v)
  | none => s

end Sys2Proof.Machine
end

