-- ==== Sys2Proof/Safety.lean ====
section
/-! DEFINITION. What the claims are about: the invariant of R19, the states a run reaches, and what an instruction
may change. -/

namespace Sys2Proof.Machine

/-- Item 3 of R19: a carry comes only with a value of at most 14. -/
abbrev ResultPossible (r : Result) : Prop := carryOf r = true → (valueOf r).toNat ≤ 14

/-- The invariant of R19: the bus shows the word under the cursor (item 2), and `result` is a value some operation can
produce (item 3). The ranges of item 1, the cursor's among them, are the registers' types. The canonical form of the
program memory is the model's own and is stated beside it (`Memory.wf`, log entry 1). -/
structure Inv (s : State) : Prop where
  busIsWord : s.bus = s.mem.read s.cursor
  resultPossible : ResultPossible s.result

/-- The states reached from the reset of the machine whose program is `m` by `Step` and `Tick` (R19). A run of the
machine itself is made of ticks alone (D3). -/
inductive Reachable (m : Memory) : State → Prop where
  | reset : Reachable m (State.resetWith m)
  | tick {s t : State} (h : Reachable m s) (hst : step s = .next t) : Reachable m t
  | engine {s u : State} (h : Reachable m s) (hsu : (engineStep s).1 = .next u) : Reachable m u

/-- The frame of the execute cycle (R82): nothing but `result` may differ, and every word of the program memory reads
as before. -/
structure OnlyResultMayChange (s t : State) : Prop where
  mem : t.mem = s.mem
  reads : ∀ i, t.mem.read i = s.mem.read i
  bus : t.bus = s.bus
  opcode : t.opcode = s.opcode
  operandA : t.operandA = s.operandA
  operandB : t.operandB = s.operandB
  cycle : t.cycle = s.cycle
  cursor : t.cursor.val = s.cursor.val

/-- The word `n` places after index `k`, the program taken as an endless loop (R32, R92). -/
def wordFrom (m : Memory) (k n : Nat) : Word := m.read ((k + n) % m.progLen)

/-- Call number `j + 1` of `next()`, counted from `s` (R99): the calls before it move the cursor only. -/
def nthNext : Nat → State → State × Word × Bool
  | 0, s => s.next
  | j + 1, s => nthNext j s.next.1

/-- What R90 says `result` holds after an instruction of the words `op`, `a`, `b` that began with `old` in it. -/
def resultAfter (old : Result) (op a b : Word) : Result :=
  if (alu op a b).1 then (alu op a b).2 else old

end Sys2Proof.Machine
end

