-- ==== Sys2Proof/Certificates/Slice0/Obligations.lean ====
section
/-! DEFINITION. The statements for the provers. `p` is a value for the open parameter `OPC_AND`; `AdmissibleAnd p`
is R6's constraint on it. `k` is the cursor at the start, `PROG_LEN` is `progLen`. -/

open Sys2Proof Sys2Proof.Machine

/-! ### The five instructions -/

/-- R61: the encoding of OR, its ALU answer, and that it completes from every state with the bitwise OR, carry 0,
and nothing but `result` written. -/
def Obligations.OrWritesBitwiseOrAndClearsCarry : Prop :=
  ∀ (p a b : Word), Config.AdmissibleAnd p →
    decodeWith p 0x4#4 a b = .or a b ∧ (aluWith p 0x4#4 a b).1 = true ∧
    ∀ s : State, ∃ t, exec (.or a b) s = .next t ∧
      t.result = (aluWith p 0x4#4 a b).2 ∧
      (∀ i, i < 4 → t.result.getLsbD i = (a.getLsbD i || b.getLsbD i)) ∧
      t.result.getLsbD 4 = false ∧ OnlyResultMayChange s t

/-- R62: the same for AND, whose opcode is the parameter. -/
def Obligations.AndWritesBitwiseAndAndClearsCarry : Prop :=
  ∀ (p a b : Word), Config.AdmissibleAnd p →
    decodeWith p p a b = .and a b ∧ (aluWith p p a b).1 = true ∧
    ∀ s : State, ∃ t, exec (.and a b) s = .next t ∧
      t.result = (aluWith p p a b).2 ∧
      (∀ i, i < 4 → t.result.getLsbD i = (a.getLsbD i && b.getLsbD i)) ∧
      t.result.getLsbD 4 = false ∧ OnlyResultMayChange s t

/-- R63: the same for XOR. -/
def Obligations.XorWritesBitwiseXorAndClearsCarry : Prop :=
  ∀ (p a b : Word), Config.AdmissibleAnd p →
    decodeWith p 0x7#4 a b = .xor a b ∧ (aluWith p 0x7#4 a b).1 = true ∧
    ∀ s : State, ∃ t, exec (.xor a b) s = .next t ∧
      t.result = (aluWith p 0x7#4 a b).2 ∧
      (∀ i, i < 4 → t.result.getLsbD i = (a.getLsbD i ^^ b.getLsbD i)) ∧
      t.result.getLsbD 4 = false ∧ OnlyResultMayChange s t

/-- R64: ADD completes from every state with the exact sum; the value is the sum modulo 16 and the carry says
whether the sum exceeds 15. -/
def Obligations.AddWritesExactSumWithCarryOut : Prop :=
  ∀ (p a b : Word), Config.AdmissibleAnd p →
    decodeWith p 0xA#4 a b = .add a b ∧ (aluWith p 0xA#4 a b).1 = true ∧
    ∀ s : State, ∃ t, exec (.add a b) s = .next t ∧
      t.result = (aluWith p 0xA#4 a b).2 ∧
      t.result.toNat = a.toNat + b.toNat ∧ t.value.toNat = (a.toNat + b.toNat) % 16 ∧
      (t.carry = true ↔ a.toNat + b.toNat > 15) ∧ OnlyResultMayChange s t

/-- R65: an opcode outside the four is the unrecognised instruction; it completes from every state, writes nothing,
and a tick at cycle 7 on it advances the cycle and changes nothing else. -/
def Obligations.UnrecognisedOpcodeHoldsEverything : Prop :=
  (∀ (op a b : Word) (s : State), exec (.unrecognised op a b) s = .next s) ∧
  (∀ (p op a b : Word), op ≠ 0x4#4 → op ≠ p → op ≠ 0x7#4 → op ≠ 0xA#4 →
    decodeWith p op a b = .unrecognised op a b ∧ (aluWith p op a b).1 = false) ∧
  (∀ s : State, s.cycle = 7#3 →
    s.opcode ≠ 0x4#4 → s.opcode ≠ Config.opcAnd → s.opcode ≠ 0x7#4 → s.opcode ≠ 0xA#4 →
    step s = .next { s with cycle := 0#3 } ∧ wrapped s = false)

/-- R92, R119: every instruction completes from every state, and none writes the program counter, the cycle
counter, the bus, an operand latch or memory. -/
def Obligations.EveryInstructionCompletesAndWritesOnlyResult : Prop :=
  ∀ (i : Instr) (s : State), ∃ t, exec i s = .next t ∧ OnlyResultMayChange s t

/-- R67: the ALU's identities. -/
def Obligations.AluIdentities : Prop :=
  ∀ p : Word, Config.AdmissibleAnd p →
    (∀ op a b : Word, aluWith p op a b = aluWith p op b a ∧
      (op ≠ 0x4#4 → op ≠ p → op ≠ 0x7#4 → op ≠ 0xA#4 → aluWith p op a b = (false, 0#5))) ∧
    ∀ a b : Word,
      (aluWith p 0x4#4 a b).2.toNat + (aluWith p p a b).2.toNat = (aluWith p 0xA#4 a b).2.toNat ∧
      (aluWith p 0x7#4 a b).2.toNat + 2 * (aluWith p p a b).2.toNat = (aluWith p 0xA#4 a b).2.toNat ∧
      (carryOf (aluWith p 0xA#4 a b).2 = true ↔ a.toNat + b.toNat ≥ 16) ∧
      (a.toNat + b.toNat ≥ 16 → (valueOf (aluWith p 0xA#4 a b).2).toNat = a.toNat + b.toNat - 16 ∧
        (valueOf (aluWith p 0xA#4 a b).2).toNat ≤ 14) ∧
      (aluWith p 0x4#4 a b).2.toNat ≤ 15 ∧
      (aluWith p p a b).2.toNat ≤ min a.toNat b.toNat ∧
      max a.toNat b.toNat ≤ (aluWith p 0x4#4 a b).2.toNat

/-! ### Encoding -/

/-- R49: the opcode map on the source's three instructions and one packed word of R47 (`0x418`). -/
def Obligations.SourceWordsDecode : Prop :=
  decode 0x4#4 0x1#4 0x8#4 = .or 0x1#4 0x8#4 ∧
  decode 0xA#4 0x7#4 0x9#4 = .add 0x7#4 0x9#4 ∧
  decode 0x7#4 0x3#4 0x5#4 = .xor 0x3#4 0x5#4 ∧
  decode Config.opcAnd 0xC#4 0xA#4 = .and 0xC#4 0xA#4 ∧
  decodeTableWord 16 0x418 = some (.or 0x1#4 0x8#4)

/-- Decoding the encoding of any well-formed instruction, whatever words follow, gives it back. -/
def Obligations.DecodeOfEncodeIsTheInstruction : Prop :=
  ∀ (p : Word), Config.AdmissibleAnd p → ∀ (i : Instr) (rest : List Word), i.wfWith p = true →
    decodeStreamWith p (encodeWith p i ++ rest) = .ok (i, rest)

/-- Every three words decode to a well-formed instruction, whose encoding is those three words; so no two words
stand for one instruction, and no pattern is invalid (R54). -/
def Obligations.EncodeOfDecodeIsTheWords : Prop :=
  ∀ (p op a b : Word), (decodeWith p op a b).wfWith p = true ∧ encodeWith p (decodeWith p op a b) = [op, a, b]

/-- R52: in the words of an assembled program, instruction number `n` is decoded at word `3 * n`. -/
def Obligations.AssembledProgramDecodesInstructionByInstruction : Prop :=
  ∀ (p : Word), Config.AdmissibleAnd p → ∀ is : List Instr, (∀ i ∈ is, i.wfWith p = true) →
    ∀ (n : Nat) (h : n < is.length),
      decodeStreamWith p ((assembleWith p is).drop (3 * n)) =
        .ok (is[n], (assembleWith p is).drop (3 * n + 3))

/-- R52: the text of a well-formed instruction reads back as that instruction. -/
def Obligations.AssemblerTextReadsBack : Prop :=
  ∀ (p : Word) (i : Instr), i.wfWith p = true → parseInstrWith p i.chars = some i

/-- The opcode table's numbering: a packed word of R47 decodes to its three words' instruction, and a number that
needs more than 12 bits is no instruction (the model's reading, log entry 5). -/
def Obligations.TableNumberingIsThePacking : Prop :=
  (∀ (nbits : Nat) (op a b : Word), 12 ≤ nbits →
    decodeTableWord nbits (pack12 op a b).toNat = some (decode op a b)) ∧
  (∀ op a b : Word, (pack12 op a b).toNat = 256 * op.toNat + 16 * a.toNat + b.toNat) ∧
  (∀ nbits w : Nat, 4096 ≤ w % 2 ^ nbits → decodeTableWord nbits w = none)

/-! ### The program source -/

/-- R97: `next()` advances first and reads second; both of the rule's formulas for the cursor and for `wrapped`. -/
def Obligations.NextAdvancesThenReads : Prop :=
  ∀ s : State, ∃ c : Fin s.mem.progLen,
    c.val = (if s.cursor.val = s.mem.progLen - 1 then 0 else s.cursor.val + 1) ∧
    c.val = (s.cursor.val + 1) % s.mem.progLen ∧
    s.next = ({ s with cursor := c }, s.mem.read c, decide (s.cursor.val = s.mem.progLen - 1)) ∧
    (s.next.2.2 = true ↔ s.next.1.cursor.val = 0)

/-- R99: from cursor 0, call number `j` returns `PROG[j mod PROG_LEN]` and reports a wraparound exactly when
`PROG_LEN` divides `j`. -/
def Obligations.CallNumberJOfNext : Prop :=
  ∀ s : State, s.cursor.val = 0 → ∀ j : Nat,
    (nthNext j s).2.1 = s.mem.read ((j + 1) % s.mem.progLen) ∧
    ((nthNext j s).2.2 = true ↔ (j + 1) % s.mem.progLen = 0)

/-- R100: construction rejects the empty list, keeps the low 4 bits of every element in its place, and starts the
cursor at 0. That the memory is in canonical form (`m.wf`) is no rule of the spec: the form is the model's own choice,
log entry 1. -/
def Obligations.ConstructionRejectsEmptyAndKeepsLowBits : Prop :=
  Memory.construct [] = none ∧
  ∀ (x : Nat) (xs : List Nat), ∃ m, Memory.construct (x :: xs) = some m ∧ m.wf = true ∧
    m.progLen = (x :: xs).length ∧
    (∀ (i : Nat) (h : i < (x :: xs).length), (m.read i).toNat = (x :: xs)[i] % 16) ∧
    (State.resetWith m).cursor.val = 0

/-! ### Reset -/

/-- R130, R23: power-on zeroes the registers, priming writes `bus` only, and the reset state is as R23's table. -/
def Obligations.ResetZeroesThenPrimesTheBus : Prop :=
  ∀ m : Memory,
    State.powerOn m = { mem := m, bus := 0#4, opcode := 0#4, operandA := 0#4, operandB := 0#4, result := 0#5,
                        cycle := 0#3, cursor := ⟨0, m.progLen_pos⟩ } ∧
    (∀ s : State, s.prime = { s with bus := s.mem.read 0 }) ∧
    State.resetWith m = (State.powerOn m).prime ∧
    State.resetWith m = { mem := m, bus := m.read 0, opcode := 0#4, operandA := 0#4, operandB := 0#4,
                          result := 0#5, cycle := 0#3, cursor := ⟨0, m.progLen_pos⟩ } ∧
    (State.resetWith m).carry = false ∧ (State.resetWith m).value = 0#4

/-- The reset state of every program has the invariant of R19, and so has `State.reset`, whose program the model does
not know (log entry 3) and whose memory is in the model's canonical form (log entry 1). -/
def Obligations.ResetHasTheInvariant : Prop :=
  (∀ m : Memory, Inv (State.resetWith m)) ∧ Inv State.reset ∧ State.reset.mem.wf = true

/-- A reset event on a running machine answers the reset state of the same program, whatever the registers held. The
meaning of a reset after the first tick is D15's choice, log entry 11. -/
def Obligations.ResetEventForgetsTheRegisters : Prop :=
  ∀ s t : State, s.mem = t.mem → s.resetEvent = t.resetEvent ∧ s.resetEvent = State.resetWith t.mem

/-! ### One tick -/

/-- R76, R78, R81: at cycles 0, 2, 5 and 6 a `Step` changes nothing and reports no wraparound, so a tick changes
`cycle` alone. -/
def Obligations.IdleCyclesChangeOnlyTheCycle : Prop :=
  ∀ s : State, s.cycle = 0#3 ∨ s.cycle = 2#3 ∨ s.cycle = 5#3 ∨ s.cycle = 6#3 →
    engineStep s = (.next s, false) ∧ step s = .next { s with cycle := s.cycle + 1#3 } ∧ wrapped s = false

/-- R77: cycle 1. -/
def Obligations.CycleOneLatchesOpcodeThenRefills : Prop :=
  ∀ s : State, s.cycle = 1#3 →
    (engineStep s).1 = .next { s with opcode := s.bus, cursor := s.mem.index (s.cursor.val + 1),
                                      bus := s.mem.read (s.mem.index (s.cursor.val + 1)) } ∧
    step s = .next { s with opcode := s.bus, cursor := s.mem.index (s.cursor.val + 1),
                            bus := s.mem.read (s.mem.index (s.cursor.val + 1)), cycle := 2#3 } ∧
    (wrapped s = true ↔ s.cursor.val = s.mem.progLen - 1)

/-- R79: cycle 3. -/
def Obligations.CycleThreeLatchesOperandAThenRefills : Prop :=
  ∀ s : State, s.cycle = 3#3 →
    (engineStep s).1 = .next { s with operandA := s.bus, cursor := s.mem.index (s.cursor.val + 1),
                                      bus := s.mem.read (s.mem.index (s.cursor.val + 1)) } ∧
    step s = .next { s with operandA := s.bus, cursor := s.mem.index (s.cursor.val + 1),
                            bus := s.mem.read (s.mem.index (s.cursor.val + 1)), cycle := 4#3 } ∧
    (wrapped s = true ↔ s.cursor.val = s.mem.progLen - 1)

/-- R80: cycle 4. -/
def Obligations.CycleFourLatchesOperandBThenRefills : Prop :=
  ∀ s : State, s.cycle = 4#3 →
    (engineStep s).1 = .next { s with operandB := s.bus, cursor := s.mem.index (s.cursor.val + 1),
                                      bus := s.mem.read (s.mem.index (s.cursor.val + 1)) } ∧
    step s = .next { s with operandB := s.bus, cursor := s.mem.index (s.cursor.val + 1),
                            bus := s.mem.read (s.mem.index (s.cursor.val + 1)), cycle := 5#3 } ∧
    (wrapped s = true ↔ s.cursor.val = s.mem.progLen - 1)

/-- R82: cycle 7 writes the ALU's answer to `result` when it is valid, and nothing else; the bus is not refilled. -/
def Obligations.CycleSevenWritesTheAluAnswer : Prop :=
  ∀ s : State, s.cycle = 7#3 →
    engineStep s =
      (if (alu s.opcode s.operandA s.operandB).1
        then .next { s with result := (alu s.opcode s.operandA s.operandB).2 } else .next s, false) ∧
    step s = .next { s with result := resultAfter s.result s.opcode s.operandA s.operandB, cycle := 0#3 } ∧
    wrapped s = false

/-- When the latched words decode to `i`, the tick at cycle 7 is `exec i`, then the cycle advance. -/
def Obligations.StepRunsTheDecodedInstruction : Prop :=
  ∀ (s : State) (i : Instr), s.cycle = 7#3 →
    decodeStream [s.opcode, s.operandA, s.operandB] = .ok (i, []) →
    step s = mapNext (fun u => { u with cycle := u.cycle + 1#3 }) (exec i s) ∧ wrapped s = false

/-- R83: a tick is one `Step`, then the cycle advance; `Step` leaves `cycle`; so `n` ticks advance it by `n`
modulo 8, whatever else the state holds. -/
def Obligations.TickIsStepThenCycleAdvance : Prop :=
  (∀ s : State, step s = mapNext (fun u => { u with cycle := u.cycle + 1#3 }) (engineStep s).1 ∧
    wrapped s = (engineStep s).2) ∧
  (∀ s u : State, (engineStep s).1 = .next u → u.cycle = s.cycle) ∧
  (∀ (n : Nat) (s t : State), ticks n s = .next t → t.cycle = s.cycle + BitVec.ofNat 3 n)

/-- R88: at cycles 0, 2, 5, 6 and 7 a repeated `Step` changes nothing more; at cycles 1, 3 and 4 each call advances
the cursor. -/
def Obligations.StepIsIdempotentWhereNoRefillHappens : Prop :=
  (∀ s : State, s.cycle = 0#3 ∨ s.cycle = 2#3 ∨ s.cycle = 5#3 ∨ s.cycle = 6#3 → (engineStep s).1 = .next s) ∧
  (∀ s u : State, s.cycle = 7#3 → (engineStep s).1 = .next u → (engineStep u).1 = .next u) ∧
  (∀ s u : State, s.cycle = 1#3 ∨ s.cycle = 3#3 ∨ s.cycle = 4#3 → (engineStep s).1 = .next u →
    u.cursor.val = (s.cursor.val + 1) % s.mem.progLen)

/-! ### The whole machine -/

/-- R91: every state has a successor, so a run of any length exists: no fault, no refusal, no halt (R110). -/
def Obligations.EveryStateHasASuccessor : Prop :=
  (∀ s : State, ∃ t, step s = .next t) ∧ ∀ (n : Nat) (s : State), ∃ t, ticks n s = .next t

/-- R30, R41: no run changes the program memory: it stays the same data, and every index reads as before. -/
def Obligations.NoRunChangesTheProgram : Prop :=
  ∀ (n : Nat) (s t : State), ticks n s = .next t → t.mem = s.mem ∧ ∀ i, t.mem.read i = s.mem.read i

/-- R11 to R14, R17: each register is written at its own cycles only. -/
def Obligations.RegistersHoldOutsideTheirCycles : Prop :=
  ∀ s t : State, step s = .next t →
    (s.cycle ≠ 1#3 → t.opcode = s.opcode) ∧
    (s.cycle ≠ 3#3 → t.operandA = s.operandA) ∧
    (s.cycle ≠ 4#3 → t.operandB = s.operandB) ∧
    (s.cycle ≠ 7#3 → t.result = s.result) ∧
    (s.cycle ≠ 1#3 → s.cycle ≠ 3#3 → s.cycle ≠ 4#3 → t.bus = s.bus ∧ t.cursor.val = s.cursor.val ∧ wrapped s = false)

/-- R14: if a tick changes `result`, it ran cycle 7 on a recognised opcode, and `result` is the ALU's answer. -/
def Obligations.ResultChangesOnlyByARecognisedExecute : Prop :=
  ∀ s t : State, step s = .next t → t.result ≠ s.result →
    s.cycle = 7#3 ∧ (s.opcode = 0x4#4 ∨ s.opcode = Config.opcAnd ∨ s.opcode = 0x7#4 ∨ s.opcode = 0xA#4) ∧
    t.result = (alu s.opcode s.operandA s.operandB).2

/-- R15: `result` is `16 * carry + value`, and what each tick does to the carry: at cycle 7 ADD writes whether the
operands' sum exceeds 15, OR, AND and XOR write 0, an unrecognised opcode holds it; every other cycle holds it. -/
def Obligations.CarryIsWrittenByRecognisedExecuteOnly : Prop :=
  (∀ s : State, s.result.toNat = 16 * s.carry.toNat + s.value.toNat) ∧
  ∀ s t : State, step s = .next t →
    t.carry =
      if s.cycle = 7#3 then
        if s.opcode = 0xA#4 then decide (s.operandA.toNat + s.operandB.toNat > 15)
        else if s.opcode = 0x4#4 ∨ s.opcode = Config.opcAnd ∨ s.opcode = 0x7#4 then false
        else s.carry
      else s.carry

/-- Every tick keeps the invariant of R19, and so does the `Step` inside it; a tick keeps the memory's canonical form
too (log entry 1). -/
def Obligations.EveryStepKeepsTheInvariant : Prop :=
  ∀ s : State, Inv s → (∀ t, step s = .next t → Inv t ∧ (s.mem.wf = true → t.mem.wf = true)) ∧
    ∀ u, (engineStep s).1 = .next u → Inv u

/-- R19: in every state reachable from reset by `Step` and `Tick` the cursor indexes a word of the program, the bus
shows that word, and a carry comes only with a value of at most 14. The program is the one reset was done with. -/
def Obligations.ReachableStatesSatisfyRuleNineteen : Prop :=
  ∀ (m : Memory) (s : State), Reachable m s →
    s.mem = m ∧ s.cursor.val < m.progLen ∧ s.bus = m.read s.cursor ∧ (s.carry = true → s.value.toNat ≤ 14)

/-- R85: `next()` is called at cycles 1, 3 and 4 and at no other, so any eight ticks, begun at any cycle, advance the
cursor by 3. -/
def Obligations.EightTicksAdvanceTheCursorByThree : Prop :=
  (∀ s t : State, step s = .next t →
    t.cursor.val = if s.cycle = 1#3 ∨ s.cycle = 3#3 ∨ s.cycle = 4#3 then (s.cursor.val + 1) % s.mem.progLen
      else s.cursor.val) ∧
  ∀ s t : State, ticks 8 s = .next t → t.cursor.val = (s.cursor.val + 3) % s.mem.progLen

/-! ### Whole instructions -/

/-- R89: from cycle 1, four ticks latch the three words that were on the bus at the start of cycles 1, 3 and 4; with
the invariant these are three consecutive program words. -/
def Obligations.FourTicksLatchThreeBusWords : Prop :=
  ∀ s : State, s.cycle = 1#3 →
    ∃ s3 s4 t, ticks 2 s = .next s3 ∧ s3.cycle = 3#3 ∧ ticks 3 s = .next s4 ∧ s4.cycle = 4#3 ∧
      ticks 4 s = .next t ∧ t.opcode = s.bus ∧ t.operandA = s3.bus ∧ t.operandB = s4.bus ∧
      t.cycle = 5#3 ∧ t.result = s.result ∧ t.mem = s.mem ∧
      (Inv s → t.opcode = s.mem.read s.cursor ∧ t.operandA = wordFrom s.mem s.cursor 1 ∧
        t.operandB = wordFrom s.mem s.cursor 2 ∧ t.cursor.val = (s.cursor.val + 3) % s.mem.progLen ∧
        t.bus = wordFrom s.mem s.cursor 3)

/-- R90: one instruction is eight ticks from cycle 0 to cycle 0: the state it leaves, the `wrapped` outputs of its
ticks, and where the n-th instruction after reset begins. -/
def Obligations.EightTicksRunOneInstruction : Prop :=
  (∀ s : State, Inv s → s.cycle = 0#3 →
    runInstruction s = .next
      { mem := s.mem, cycle := 0#3, cursor := s.mem.index (s.cursor.val + 3), bus := wordFrom s.mem s.cursor 3,
        opcode := s.mem.read s.cursor, operandA := wordFrom s.mem s.cursor 1,
        operandB := wordFrom s.mem s.cursor 2,
        result := resultAfter s.result (s.mem.read s.cursor) (wordFrom s.mem s.cursor 1)
          (wordFrom s.mem s.cursor 2) } ∧
    (trace 8 s).map Prod.snd =
      [false, decide (s.cursor.val = s.mem.progLen - 1), false,
       decide ((s.cursor.val + 1) % s.mem.progLen = s.mem.progLen - 1),
       decide ((s.cursor.val + 2) % s.mem.progLen = s.mem.progLen - 1), false, false, false]) ∧
  ∀ (m : Memory) (n : Nat), ∃ t, ticks (8 * n) (State.resetWith m) = .next t ∧ t.cycle = 0#3 ∧
    t.cursor.val = 3 * n % m.progLen ∧ t.bus = m.read (3 * n % m.progLen)

/-- An instruction whose three program words decode to `i` is: seven ticks that fetch it and leave `result`, then
`exec i` and the cycle advance. -/
def Obligations.AnInstructionIsFetchThenExec : Prop :=
  ∀ (s : State) (i : Instr), Inv s → s.cycle = 0#3 →
    decode (s.mem.read s.cursor) (wordFrom s.mem s.cursor 1) (wordFrom s.mem s.cursor 2) = i →
    ∃ f, ticks 7 s = .next f ∧ f.cycle = 7#3 ∧ f.latched = i ∧ f.result = s.result ∧ f.mem = s.mem ∧
      ticks 8 s = mapNext (fun u => { u with cycle := 0#3 }) (exec i f)

/-- R50, R136: an instruction with an unrecognised opcode is fetched like any other (three words latched, the cursor
moved by three) and leaves `result`, carry included: a stale carry survives it. -/
def Obligations.UnrecognisedInstructionKeepsAStaleCarry : Prop :=
  ∀ s : State, Inv s → s.cycle = 0#3 → recognised (s.mem.read s.cursor) = false →
    ∃ t, ticks 8 s = .next t ∧ t.result = s.result ∧ t.carry = s.carry ∧ t.cycle = 0#3 ∧
      t.opcode = s.mem.read s.cursor ∧ t.operandA = wordFrom s.mem s.cursor 1 ∧
      t.operandB = wordFrom s.mem s.cursor 2 ∧ t.cursor.val = (s.cursor.val + 3) % s.mem.progLen

/-- R131: the first eight ticks after reset. -/
def Obligations.FirstTicksAfterReset : Prop :=
  ∀ m : Memory,
    step (State.resetWith m) = .next { State.resetWith m with cycle := 1#3 } ∧
    (∃ t, ticks 2 (State.resetWith m) = .next t ∧ t.opcode = m.read 0) ∧
    (∃ t, ticks 4 (State.resetWith m) = .next t ∧ t.operandA = m.read (1 % m.progLen)) ∧
    (∃ t, ticks 5 (State.resetWith m) = .next t ∧ t.operandB = m.read (2 % m.progLen)) ∧
    (∀ n, n ≤ 7 → ∃ t, ticks n (State.resetWith m) = .next t ∧ t.result = 0#5) ∧
    ∃ t, ticks 8 (State.resetWith m) = .next t ∧ t.cycle = 0#3 ∧
      t.result = resultAfter 0#5 (m.read 0) (m.read (1 % m.progLen)) (m.read (2 % m.progLen))

/-- R134: `result` is the ALU's answer for the latched words from the end of cycle 7 to the end of the next cycle 0,
if the opcode is recognised. -/
def Obligations.ResultAgreesWithTheLatchesAfterExecute : Prop :=
  ∀ s : State, s.cycle = 7#3 → recognised s.opcode = true →
    ∃ t u, step s = .next t ∧ step t = .next u ∧ t.cycle = 0#3 ∧ u.cycle = 1#3 ∧
      t.result = (alu t.opcode t.operandA t.operandB).2 ∧ u.result = (alu u.opcode u.operandA u.operandB).2 ∧
      u.opcode = s.opcode

/-- R135: from the end of cycle 4 to the next cycle 1 the bus is steady, and shows the next instruction's opcode
word, which that cycle 1 latches. -/
def Obligations.BusIsSteadyUntilTheNextOpcodeLatch : Prop :=
  ∀ s : State, s.cycle = 5#3 →
    (∀ n, n ≤ 4 → ∃ t, ticks n s = .next t ∧ t.bus = s.bus ∧ t.cursor.val = s.cursor.val) ∧
    ∃ t, ticks 5 s = .next t ∧ t.cycle = 2#3 ∧ t.opcode = s.bus

/-- R14, R60: nothing an earlier instruction left reaches a recognised one: two states that agree on the program and
the cursor alone are equal after it, `result` and carry included. -/
def Obligations.RecognisedInstructionForgetsThePast : Prop :=
  ∀ s t : State, Inv s → Inv t → s.cycle = 0#3 → t.cycle = 0#3 → s.mem = t.mem → s.cursor.val = t.cursor.val →
    recognised (s.mem.read s.cursor) = true → ticks 8 s = ticks 8 t

/-- R137: after `PROG_LEN` instructions, three passes over the program, the cut of the stream is back where it
began. -/
def Obligations.InstructionBoundariesRepeatAfterThreePasses : Prop :=
  ∀ s : State, Inv s → s.cycle = 0#3 →
    ∃ t, ticks (8 * s.mem.progLen) s = .next t ∧ t.cycle = 0#3 ∧ t.cursor.val = s.cursor.val ∧ t.bus = s.bus

/-- R101: with a one-word program the cursor stays 0, the bus shows the one word, and every refill reports a
wraparound; every completed instruction consists of that word three times. -/
def Obligations.OneWordProgramNeverMoves : Prop :=
  ∀ s : State, Inv s → s.mem.progLen = 1 →
    (∀ n, ∃ t, ticks n s = .next t ∧ t.cursor.val = 0 ∧ t.bus = s.mem.read 0 ∧
      (wrapped t = true ↔ t.cycle = 1#3 ∨ t.cycle = 3#3 ∨ t.cycle = 4#3)) ∧
    ∀ n, 8 ≤ n → ∃ t, ticks n s = .next t ∧ t.opcode = s.mem.read 0 ∧ t.operandA = s.mem.read 0 ∧
      t.operandB = s.mem.read 0

/-! ### The load of one instruction word (the model's own, log entry 6) -/

/-- The state that loading a word after reset makes is the one the machine itself reaches, seven ticks after reset on
the program of that word's three words. -/
def Obligations.LoadedWordIsSevenTicksAfterReset : Prop :=
  ∀ (nbits : Nat) (op a b : Word), 12 ≤ nbits →
    ticks 7 (State.resetWith (Memory.ofWords op [a, b])) =
      .next (State.reset.withFetchWord nbits (pack12 op a b).toNat)

/-- The very next step after a load runs the instruction the decoder reads from the word. -/
def Obligations.LoadedWordRunsNext : Prop :=
  ∀ (s : State) (nbits w : Nat) (i : Instr), decodeTableWord nbits w = some i →
    step (s.withFetchWord nbits w) =
      mapNext (fun u => { u with cycle := 0#3 }) (exec i (s.withFetchWord nbits w))
end

