-- ==== Sys2Proof/Laws/Config.lean ====
section
/-! SUPPORT. The open parameter `OPC_AND` is admissible, and each admissible value is among those it may be. -/

namespace Sys2Proof.Config

theorem andCandidate_admissible (i : Fin 13) : AdmissibleAnd (andCandidate i) := by
  revert i; decide

/-- Every admissible value is a candidate, so the opaque choice shuts none out (R6). -/
theorem exists_andCandidate (p : Word) (h : AdmissibleAnd p) : ∃ i, andCandidate i = p := by
  revert p; decide

theorem opcAnd_admissible : AdmissibleAnd opcAnd := andCandidate_admissible andChoice

theorem opcAnd_ne_opcOr : opcAnd ≠ opcOr := opcAnd_admissible.1
theorem opcAnd_ne_opcXor : opcAnd ≠ opcXor := opcAnd_admissible.2.1
theorem opcAnd_ne_opcAdd : opcAnd ≠ opcAdd := opcAnd_admissible.2.2

end Sys2Proof.Config
end

