-- ==== Sys2Proof/Laws/Memory.lean ====
section
/-! SUPPORT. What the program memory's operations do: building a memory gives the canonical form and keeps every
word at its index, and a canonical memory is determined by its length and its words. -/

namespace Sys2Proof.Machine

@[simp] theorem Memory.index_val (m : Memory) (n : Nat) : (m.index n).val = n % m.progLen := rfl

/-- Counting on from an index already taken modulo `PROG_LEN`. -/
@[simp] theorem Memory.index_mod_add (m : Memory) (n k : Nat) : m.index (n % m.progLen + k) = m.index (n + k) :=
  Fin.ext (Nat.mod_add_mod n m.progLen k)

/-- An index of the program is itself. -/
@[simp] theorem Memory.index_of_fin (m : Memory) (i : Fin m.progLen) : m.index i.val = i :=
  Fin.ext (Nat.mod_eq_of_lt i.isLt)

@[simp] theorem Memory.progLen_ofWords (w : Word) (ws : List Word) :
    (Memory.ofWords w ws).progLen = ws.length + 1 := rfl

theorem cellsWf_cellsFrom (last i : Nat) (ws : List Word) (h : i + ws.length ≤ last + 1) (lo : Nat) (hlo : lo ≤ i) :
    cellsWf last lo (cellsFrom i ws) = true := by
  induction ws generalizing i lo with
  | nil => rfl
  | cons w ws ih =>
    simp only [List.length_cons] at h
    by_cases hw : w = Memory.unlisted
    · simpa [cellsFrom, hw] using ih (i + 1) (by omega) lo (by omega)
    · simp only [cellsFrom, hw, if_false, cellsWf]
      simp [hlo, hw, ih (i + 1) (by omega) (i + 1) (Nat.le_refl _), show i ≤ last by omega]

/-- A memory built from words is in canonical form. -/
theorem Memory.wf_ofWords (w : Word) (ws : List Word) : (Memory.ofWords w ws).wf = true :=
  cellsWf_cellsFrom _ 0 (w :: ws) (by simp [Memory.ofWords]) 0 (Nat.le_refl _)

theorem lookupCell_cellsFrom_below (i j : Nat) (ws : List Word) (h : j < i) :
    lookupCell (cellsFrom i ws) j = Memory.unlisted := by
  induction ws generalizing i with
  | nil => rfl
  | cons w ws ih =>
    by_cases hw : w = Memory.unlisted
    · simpa [cellsFrom, hw] using ih (i + 1) (by omega)
    · simp [cellsFrom, hw, lookupCell, show i ≠ j by omega, ih (i + 1) (by omega)]

theorem lookupCell_cellsFrom (i j : Nat) (ws : List Word) :
    lookupCell (cellsFrom i ws) (i + j) = ws.getD j Memory.unlisted := by
  induction ws generalizing i j with
  | nil => rfl
  | cons w ws ih =>
    cases j with
    | zero =>
      by_cases hw : w = Memory.unlisted
      · simp [cellsFrom, hw, lookupCell_cellsFrom_below]
      · simp [cellsFrom, hw, lookupCell]
    | succ j =>
      have hih := ih (i + 1) j
      rw [show i + 1 + j = i + (j + 1) by omega] at hih
      by_cases hw : w = Memory.unlisted
      · simpa [cellsFrom, hw] using hih
      · simpa [cellsFrom, hw, lookupCell] using hih

/-- Reading a memory built from words gives the word at that index. -/
theorem Memory.read_ofWords (w : Word) (ws : List Word) (i : Nat) :
    (Memory.ofWords w ws).read i = (w :: ws).getD i Memory.unlisted := by
  simpa [Memory.read, Memory.ofWords] using lookupCell_cellsFrom 0 i (w :: ws)

theorem Memory.construct_wf {xs : List Nat} {m : Memory} (h : Memory.construct xs = some m) : m.wf = true := by
  cases xs with
  | nil => simp [Memory.construct] at h
  | cons x xs =>
    simp only [Memory.construct, Option.some.injEq] at h
    exact h ▸ Memory.wf_ofWords _ _

theorem lookupCell_below_of_cellsWf {last lo : Nat} {cs : List (Nat × Word)} (h : cellsWf last lo cs = true)
    {i : Nat} (hi : i < lo) : lookupCell cs i = Memory.unlisted := by
  induction cs generalizing lo with
  | nil => rfl
  | cons c cs ih =>
    obtain ⟨k, w⟩ := c
    simp only [cellsWf, Bool.and_eq_true, decide_eq_true_eq] at h
    simp [lookupCell, show k ≠ i by omega, ih h.2 (by omega)]

theorem cells_eq_of_lookup_eq {last lo : Nat} {cs ds : List (Nat × Word)} (hc : cellsWf last lo cs = true)
    (hd : cellsWf last lo ds = true) (h : ∀ i, lookupCell cs i = lookupCell ds i) : cs = ds := by
  induction cs generalizing lo ds with
  | nil =>
    cases ds with
    | nil => rfl
    | cons d ds =>
      simp only [cellsWf, Bool.and_eq_true, decide_eq_true_eq] at hd
      exact absurd (by simpa [lookupCell] using (h d.1).symm) hd.1.2
  | cons c cs ih =>
    obtain ⟨k, w⟩ := c
    cases ds with
    | nil =>
      simp only [cellsWf, Bool.and_eq_true, decide_eq_true_eq] at hc
      exact absurd (by simpa [lookupCell] using h k) hc.1.2
    | cons d ds =>
      obtain ⟨j, v⟩ := d
      simp only [cellsWf, Bool.and_eq_true, decide_eq_true_eq] at hc hd
      obtain ⟨⟨⟨hck, hcl⟩, hcw⟩, hcr⟩ := hc
      obtain ⟨⟨⟨hdk, hdl⟩, hdw⟩, hdr⟩ := hd
      have hkj : k = j := by
        rcases Nat.lt_trichotomy k j with hlt | heq | hgt
        · exact absurd (by simpa [lookupCell, Nat.ne_of_gt hlt,
            lookupCell_below_of_cellsWf hdr (show k < j + 1 by omega)] using h k) hcw
        · exact heq
        · exact absurd (by simpa [lookupCell, Nat.ne_of_gt hgt,
            lookupCell_below_of_cellsWf hcr (show j < k + 1 by omega)] using (h j).symm) hdw
      subst hkj
      have hwv : w = v := by simpa [lookupCell] using h k
      subst hwv
      have hrest : cs = ds := ih hcr hdr fun i => by
        by_cases hi : k = i
        · subst hi
          rw [lookupCell_below_of_cellsWf hcr (Nat.lt_succ_self _), lookupCell_below_of_cellsWf hdr (Nat.lt_succ_self _)]
        · simpa [lookupCell, hi] using h i
      rw [hrest]

/-- Canonical memories of one length that read alike are equal: equal memories are equal data. -/
theorem Memory.eq_of_read_eq {m n : Memory} (hm : m.wf = true) (hn : n.wf = true) (hl : m.lastIndex = n.lastIndex)
    (h : ∀ i, m.read i = n.read i) : m = n := by
  obtain ⟨l, cs⟩ := m
  obtain ⟨l', ds⟩ := n
  simp only at hl
  subst hl
  exact congrArg _ (cells_eq_of_lookup_eq hm hn h)

end Sys2Proof.Machine
end

