-- ==== Sys2Proof/Laws/State.lean ====
section
/-! SUPPORT. One lemma per field per update of State, so that no proof unfolds a record update. The
cursor's lemmas speak of its value, since its type names the memory of the state it stands in. -/

namespace Sys2Proof.Machine

@[simp] theorem State.setBus_mem (s : State) (v : Word) : (s.setBus v).mem = s.mem := rfl
@[simp] theorem State.setBus_bus (s : State) (v : Word) : (s.setBus v).bus = v := rfl
@[simp] theorem State.setBus_opcode (s : State) (v : Word) : (s.setBus v).opcode = s.opcode := rfl
@[simp] theorem State.setBus_operandA (s : State) (v : Word) : (s.setBus v).operandA = s.operandA := rfl
@[simp] theorem State.setBus_operandB (s : State) (v : Word) : (s.setBus v).operandB = s.operandB := rfl
@[simp] theorem State.setBus_result (s : State) (v : Word) : (s.setBus v).result = s.result := rfl
@[simp] theorem State.setBus_cycle (s : State) (v : Word) : (s.setBus v).cycle = s.cycle := rfl
@[simp] theorem State.setBus_cursor (s : State) (v : Word) : (s.setBus v).cursor.val = s.cursor.val := rfl

@[simp] theorem State.setOpcode_mem (s : State) (v : Word) : (s.setOpcode v).mem = s.mem := rfl
@[simp] theorem State.setOpcode_bus (s : State) (v : Word) : (s.setOpcode v).bus = s.bus := rfl
@[simp] theorem State.setOpcode_opcode (s : State) (v : Word) : (s.setOpcode v).opcode = v := rfl
@[simp] theorem State.setOpcode_operandA (s : State) (v : Word) : (s.setOpcode v).operandA = s.operandA := rfl
@[simp] theorem State.setOpcode_operandB (s : State) (v : Word) : (s.setOpcode v).operandB = s.operandB := rfl
@[simp] theorem State.setOpcode_result (s : State) (v : Word) : (s.setOpcode v).result = s.result := rfl
@[simp] theorem State.setOpcode_cycle (s : State) (v : Word) : (s.setOpcode v).cycle = s.cycle := rfl
@[simp] theorem State.setOpcode_cursor (s : State) (v : Word) : (s.setOpcode v).cursor.val = s.cursor.val := rfl

@[simp] theorem State.setOperandA_mem (s : State) (v : Word) : (s.setOperandA v).mem = s.mem := rfl
@[simp] theorem State.setOperandA_bus (s : State) (v : Word) : (s.setOperandA v).bus = s.bus := rfl
@[simp] theorem State.setOperandA_opcode (s : State) (v : Word) : (s.setOperandA v).opcode = s.opcode := rfl
@[simp] theorem State.setOperandA_operandA (s : State) (v : Word) : (s.setOperandA v).operandA = v := rfl
@[simp] theorem State.setOperandA_operandB (s : State) (v : Word) : (s.setOperandA v).operandB = s.operandB := rfl
@[simp] theorem State.setOperandA_result (s : State) (v : Word) : (s.setOperandA v).result = s.result := rfl
@[simp] theorem State.setOperandA_cycle (s : State) (v : Word) : (s.setOperandA v).cycle = s.cycle := rfl
@[simp] theorem State.setOperandA_cursor (s : State) (v : Word) : (s.setOperandA v).cursor.val = s.cursor.val := rfl

@[simp] theorem State.setOperandB_mem (s : State) (v : Word) : (s.setOperandB v).mem = s.mem := rfl
@[simp] theorem State.setOperandB_bus (s : State) (v : Word) : (s.setOperandB v).bus = s.bus := rfl
@[simp] theorem State.setOperandB_opcode (s : State) (v : Word) : (s.setOperandB v).opcode = s.opcode := rfl
@[simp] theorem State.setOperandB_operandA (s : State) (v : Word) : (s.setOperandB v).operandA = s.operandA := rfl
@[simp] theorem State.setOperandB_operandB (s : State) (v : Word) : (s.setOperandB v).operandB = v := rfl
@[simp] theorem State.setOperandB_result (s : State) (v : Word) : (s.setOperandB v).result = s.result := rfl
@[simp] theorem State.setOperandB_cycle (s : State) (v : Word) : (s.setOperandB v).cycle = s.cycle := rfl
@[simp] theorem State.setOperandB_cursor (s : State) (v : Word) : (s.setOperandB v).cursor.val = s.cursor.val := rfl

@[simp] theorem State.setResult_mem (s : State) (v : Result) : (s.setResult v).mem = s.mem := rfl
@[simp] theorem State.setResult_bus (s : State) (v : Result) : (s.setResult v).bus = s.bus := rfl
@[simp] theorem State.setResult_opcode (s : State) (v : Result) : (s.setResult v).opcode = s.opcode := rfl
@[simp] theorem State.setResult_operandA (s : State) (v : Result) : (s.setResult v).operandA = s.operandA := rfl
@[simp] theorem State.setResult_operandB (s : State) (v : Result) : (s.setResult v).operandB = s.operandB := rfl
@[simp] theorem State.setResult_result (s : State) (v : Result) : (s.setResult v).result = v := rfl
@[simp] theorem State.setResult_cycle (s : State) (v : Result) : (s.setResult v).cycle = s.cycle := rfl
@[simp] theorem State.setResult_cursor (s : State) (v : Result) : (s.setResult v).cursor.val = s.cursor.val := rfl

@[simp] theorem State.setCycle_mem (s : State) (v : BitVec 3) : (s.setCycle v).mem = s.mem := rfl
@[simp] theorem State.setCycle_bus (s : State) (v : BitVec 3) : (s.setCycle v).bus = s.bus := rfl
@[simp] theorem State.setCycle_opcode (s : State) (v : BitVec 3) : (s.setCycle v).opcode = s.opcode := rfl
@[simp] theorem State.setCycle_operandA (s : State) (v : BitVec 3) : (s.setCycle v).operandA = s.operandA := rfl
@[simp] theorem State.setCycle_operandB (s : State) (v : BitVec 3) : (s.setCycle v).operandB = s.operandB := rfl
@[simp] theorem State.setCycle_result (s : State) (v : BitVec 3) : (s.setCycle v).result = s.result := rfl
@[simp] theorem State.setCycle_cycle (s : State) (v : BitVec 3) : (s.setCycle v).cycle = v := rfl
@[simp] theorem State.setCycle_cursor (s : State) (v : BitVec 3) : (s.setCycle v).cursor.val = s.cursor.val := rfl

@[simp] theorem State.setCursor_mem (s : State) (n : Nat) : (s.setCursor n).mem = s.mem := rfl
@[simp] theorem State.setCursor_bus (s : State) (n : Nat) : (s.setCursor n).bus = s.bus := rfl
@[simp] theorem State.setCursor_opcode (s : State) (n : Nat) : (s.setCursor n).opcode = s.opcode := rfl
@[simp] theorem State.setCursor_operandA (s : State) (n : Nat) : (s.setCursor n).operandA = s.operandA := rfl
@[simp] theorem State.setCursor_operandB (s : State) (n : Nat) : (s.setCursor n).operandB = s.operandB := rfl
@[simp] theorem State.setCursor_result (s : State) (n : Nat) : (s.setCursor n).result = s.result := rfl
@[simp] theorem State.setCursor_cycle (s : State) (n : Nat) : (s.setCursor n).cycle = s.cycle := rfl
@[simp] theorem State.setCursor_cursor (s : State) (n : Nat) : (s.setCursor n).cursor.val = n % s.mem.progLen := rfl

@[simp] theorem State.resetWith_mem (m : Memory) : (State.resetWith m).mem = m := rfl
@[simp] theorem State.resetWith_bus (m : Memory) : (State.resetWith m).bus = m.first := rfl
@[simp] theorem State.resetWith_opcode (m : Memory) : (State.resetWith m).opcode = 0#4 := rfl
@[simp] theorem State.resetWith_operandA (m : Memory) : (State.resetWith m).operandA = 0#4 := rfl
@[simp] theorem State.resetWith_operandB (m : Memory) : (State.resetWith m).operandB = 0#4 := rfl
@[simp] theorem State.resetWith_result (m : Memory) : (State.resetWith m).result = 0#5 := rfl
@[simp] theorem State.resetWith_cycle (m : Memory) : (State.resetWith m).cycle = 0#3 := rfl
@[simp] theorem State.resetWith_cursor (m : Memory) : (State.resetWith m).cursor.val = 0 := rfl

@[simp] theorem State.loadAtExecute_mem (s : State) (op a b : Word) :
    (s.loadAtExecute op a b).mem = Memory.ofWords op [a, b] := rfl
@[simp] theorem State.loadAtExecute_bus (s : State) (op a b : Word) :
    (s.loadAtExecute op a b).bus = op := rfl
@[simp] theorem State.loadAtExecute_opcode (s : State) (op a b : Word) :
    (s.loadAtExecute op a b).opcode = op := rfl
@[simp] theorem State.loadAtExecute_operandA (s : State) (op a b : Word) :
    (s.loadAtExecute op a b).operandA = a := rfl
@[simp] theorem State.loadAtExecute_operandB (s : State) (op a b : Word) :
    (s.loadAtExecute op a b).operandB = b := rfl
@[simp] theorem State.loadAtExecute_result (s : State) (op a b : Word) :
    (s.loadAtExecute op a b).result = s.result := rfl
@[simp] theorem State.loadAtExecute_cycle (s : State) (op a b : Word) :
    (s.loadAtExecute op a b).cycle = 7#3 := rfl
@[simp] theorem State.loadAtExecute_cursor (s : State) (op a b : Word) :
    (s.loadAtExecute op a b).cursor.val = 0 := rfl

/-- Two states with equal fields are equal. -/
theorem State.eq_of_fields {s t : State} (hm : s.mem = t.mem) (hb : s.bus = t.bus) (ho : s.opcode = t.opcode)
    (ha : s.operandA = t.operandA) (hB : s.operandB = t.operandB) (hr : s.result = t.result)
    (hc : s.cycle = t.cycle) (hp : s.cursor.val = t.cursor.val) : s = t := by
  cases s; cases t; simp only at *; subst_vars; simp [Fin.ext_iff, hp]

end Sys2Proof.Machine
end

