-- ==== Sys2Proof/Laws/Ops.lean ====
section
/-! SUPPORT. What the shared register operations do, once each. -/

namespace Sys2Proof.Machine

/-- `next()` (R97), said whole. -/
theorem State.next_spec (s : State) :
    s.next.1 = s.setCursor (s.cursor.val + 1) ∧ s.next.2.1 = s.mem.read ((s.cursor.val + 1) % s.mem.progLen) ∧
    s.next.2.2 = s.nextWraps :=
  ⟨rfl, rfl, rfl⟩

/-- A refill writes the cursor and the bus, and nothing else. -/
theorem State.refill_state (s : State) :
    s.refill.1 = (s.setCursor (s.cursor.val + 1)).setBus (s.mem.read ((s.cursor.val + 1) % s.mem.progLen)) := rfl

theorem State.refill_wrapped (s : State) : s.refill.2 = s.nextWraps := rfl

/-- The advance by remainder is R97's advance by comparison. -/
theorem State.advanceCursor_val (s : State) :
    s.advanceCursor.cursor.val = if s.cursor.val = s.mem.progLen - 1 then 0 else s.cursor.val + 1 := by
  have hlt := s.cursor.isLt
  have hadv : s.advanceCursor.cursor.val = (s.cursor.val + 1) % s.mem.progLen := rfl
  rw [hadv]
  split
  · next h1 => rw [h1, Nat.sub_add_cancel s.mem.progLen_pos, Nat.mod_self]
  · exact Nat.mod_eq_of_lt (by omega)

/-- States of one program whose cursors have one value have one cursor. -/
theorem State.cursor_eq_index {s : State} {n : Nat} (h : s.cursor.val = n) : s.cursor = s.mem.index n := by
  subst h
  exact (s.mem.index_of_fin _).symm

@[simp] theorem State.advanceCycle_mem (s : State) : s.advanceCycle.mem = s.mem := rfl
@[simp] theorem State.advanceCycle_bus (s : State) : s.advanceCycle.bus = s.bus := rfl
@[simp] theorem State.advanceCycle_opcode (s : State) : s.advanceCycle.opcode = s.opcode := rfl
@[simp] theorem State.advanceCycle_operandA (s : State) : s.advanceCycle.operandA = s.operandA := rfl
@[simp] theorem State.advanceCycle_operandB (s : State) : s.advanceCycle.operandB = s.operandB := rfl
@[simp] theorem State.advanceCycle_result (s : State) : s.advanceCycle.result = s.result := rfl
@[simp] theorem State.advanceCycle_cycle (s : State) : s.advanceCycle.cycle = s.cycle + 1#3 := rfl
@[simp] theorem State.advanceCycle_cursor (s : State) : s.advanceCycle.cursor.val = s.cursor.val := rfl

@[simp] theorem mapNext_next (f : State → State) (s : State) : mapNext f (.next s) = .next (f s) := rfl

/-- The memory a load makes is in canonical form. -/
theorem State.loadAtExecute_mem_wf (s : State) (op a b : Word) : (s.loadAtExecute op a b).mem.wf = true :=
  Memory.wf_ofWords _ _

/-- A reset event depends on the program alone (D15). -/
theorem State.resetEvent_eq (s : State) : s.resetEvent = State.resetWith s.mem := rfl

end Sys2Proof.Machine
end

