-- ==== Sys2Proof/Laws/Alu.lean ====
section
/-! SUPPORT. What the ALU's results are, and what `exec` does: it answers a next state and writes `result` at most. -/

namespace Sys2Proof.Machine

@[simp] theorem carryOf_packResult (c : Bool) (v : Word) : carryOf (packResult c v) = c := by
  revert c v; decide

@[simp] theorem valueOf_packResult (c : Bool) (v : Word) : valueOf (packResult c v) = v := by
  revert c v; decide

/-- `result = 16 * carry + value` (R15). -/
theorem packResult_toNat (c : Bool) (v : Word) : (packResult c v).toNat = 16 * c.toNat + v.toNat := by
  revert c v; decide

theorem packResult_carry_value (r : Result) : packResult (carryOf r) (valueOf r) = r := by
  revert r; decide

/-- The sum is exact (R64): it fits in 5 bits. -/
theorem addResult_toNat (a b : Word) : (addResult a b).toNat = a.toNat + b.toNat := by
  have ha := a.isLt
  have hb := b.isLt
  simp only [addResult, zext5, BitVec.toNat_add, BitVec.toNat_setWidth]
  omega

theorem recognisedWith_eq_false_iff (p op : Word) :
    recognisedWith p op = false ↔ op ≠ 0x4#4 ∧ op ≠ p ∧ op ≠ 0x7#4 ∧ op ≠ 0xA#4 := by
  simp [recognisedWith, Config.opcOr, Config.opcXor, Config.opcAdd, and_assoc]

/-- `valid` is true exactly when the opcode is recognised (R60). -/
theorem aluWith_valid (p op a b : Word) : (aluWith p op a b).1 = recognisedWith p op := by
  unfold aluWith recognisedWith
  split_ifs <;> simp_all

theorem aluWith_or (p a b : Word) : aluWith p 0x4#4 a b = (true, orResult a b) := rfl

theorem aluWith_and {p : Word} (h : Config.AdmissibleAnd p) (a b : Word) :
    aluWith p p a b = (true, andResult a b) := by
  simp [aluWith, h.1]

theorem aluWith_xor {p : Word} (h : Config.AdmissibleAnd p) (a b : Word) :
    aluWith p 0x7#4 a b = (true, xorResult a b) := by
  simp [aluWith, show (0x7#4 : Word) ≠ p from fun e => h.2.1 e.symm, Config.opcOr, Config.opcXor]

theorem aluWith_add {p : Word} (h : Config.AdmissibleAnd p) (a b : Word) :
    aluWith p 0xA#4 a b = (true, addResult a b) := by
  simp [aluWith, show (0xA#4 : Word) ≠ p from fun e => h.2.2 e.symm, Config.opcOr, Config.opcXor, Config.opcAdd]

theorem aluWith_unrecognised {p op : Word} (h : recognisedWith p op = false) (a b : Word) :
    aluWith p op a b = (false, 0#5) := by
  have h' := (recognisedWith_eq_false_iff p op).1 h
  simp [aluWith, Config.opcOr, Config.opcXor, Config.opcAdd, h']

/-- The new `result` of an instruction, given the old one. -/
def Instr.newResult (old : Result) : Instr → Result
  | .or a b => orResult a b
  | .and a b => andResult a b
  | .xor a b => xorResult a b
  | .add a b => addResult a b
  | .unrecognised _ _ _ => old

/-- `exec` said whole: always a next state, and only `result` is written. -/
theorem exec_eq (i : Instr) (s : State) : exec i s = .next (s.setResult (Instr.newResult s.result i)) := by
  cases i <;> rfl

theorem exec_or (a b : Word) (s : State) : exec (.or a b) s = .next (s.setResult (orResult a b)) := rfl
theorem exec_and (a b : Word) (s : State) : exec (.and a b) s = .next (s.setResult (andResult a b)) := rfl
theorem exec_xor (a b : Word) (s : State) : exec (.xor a b) s = .next (s.setResult (xorResult a b)) := rfl
theorem exec_add (a b : Word) (s : State) : exec (.add a b) s = .next (s.setResult (addResult a b)) := rfl
theorem exec_unrecognised (op a b : Word) (s : State) : exec (.unrecognised op a b) s = .next s := rfl

end Sys2Proof.Machine
end

