-- ==== Sys2Proof/Laws/Decode.lean ====
section
/-! SUPPORT. What the decoder answers, word by word of the opcode map (R54), and the packing of R47. -/

namespace Sys2Proof

theorem decodeWith_or (p a b : Word) : decodeWith p Config.opcOr a b = .or a b := rfl
theorem decodeWith_xor (p a b : Word) : decodeWith p Config.opcXor a b = .xor a b := rfl
theorem decodeWith_add (p a b : Word) : decodeWith p Config.opcAdd a b = .add a b := rfl

theorem decodeWith_and {p : Word} (h : Config.AdmissibleAnd p) (a b : Word) : decodeWith p p a b = .and a b := by
  simp [decodeWith, h.1, h.2.1, h.2.2]

theorem decodeWith_unrecognised {p op : Word} (h : recognisedWith p op = false) (a b : Word) :
    decodeWith p op a b = .unrecognised op a b := by
  simp only [recognisedWith, Bool.or_eq_false_iff, beq_eq_false_iff_ne] at h
  simp [decodeWith, h.1.1.1, h.1.1.2, h.1.2, h.2]

theorem decode_opcAnd (a b : Word) : decode Config.opcAnd a b = .and a b :=
  decodeWith_and Config.opcAnd_admissible a b

/-- The packing of R47 loses nothing. -/
theorem unpack_pack12 (op a b : Word) :
    unpackOp (pack12 op a b) = op ∧ unpackA (pack12 op a b) = a ∧ unpackB (pack12 op a b) = b := by
  refine ⟨?_, ?_, ?_⟩ <;> (apply BitVec.eq_of_getLsbD_eq; intro i hi; simp only [unpackOp, unpackA, unpackB, pack12,
    BitVec.getLsbD_extractLsb', BitVec.getLsbD_append]; grind)

end Sys2Proof
end

