-- ==== Sys2Proof/Laws/PerInstr.lean ====
section
/-! SUPPORT. Per-instruction facts about the syntax: three words each, the last two the operands (R45, R46). -/

namespace Sys2Proof.Laws.EncodingShape

/-- An instruction's encoding is its opcode word, operand A, operand B (R46), and reading the words back by
position gives them. -/
def Statement (i : Instr) : Prop :=
  ∀ p : Word, (encodeWith p i).length = 3 ∧ (encodeWith p i)[0]? = some (i.opWith p) ∧
    (encodeWith p i)[1]? = some i.opndA ∧ (encodeWith p i)[2]? = some i.opndB

theorem or (a b : Word) : Statement (.or a b) := fun _ => ⟨rfl, rfl, rfl, rfl⟩
theorem and (a b : Word) : Statement (.and a b) := fun _ => ⟨rfl, rfl, rfl, rfl⟩
theorem xor (a b : Word) : Statement (.xor a b) := fun _ => ⟨rfl, rfl, rfl, rfl⟩
theorem add (a b : Word) : Statement (.add a b) := fun _ => ⟨rfl, rfl, rfl, rfl⟩
theorem unrecognised (op a b : Word) : Statement (.unrecognised op a b) := fun _ => ⟨rfl, rfl, rfl, rfl⟩

end Sys2Proof.Laws.EncodingShape
end

