-- ==== Sys2Proof/Laws/Sequencer.lean ====
section
/-! SUPPORT. What a tick does, cycle by cycle, and the one case analysis of `step` that later proofs cite. -/

namespace Sys2Proof.Machine

/-- Every cycle is one of the eight. -/
theorem cycle_cases (c : BitVec 3) :
    c = 0#3 ∨ c = 1#3 ∨ c = 2#3 ∨ c = 3#3 ∨ c = 4#3 ∨ c = 5#3 ∨ c = 6#3 ∨ c = 7#3 := by
  revert c; decide

theorem step_at_idle {s : State} (h : s.cycle = 0#3 ∨ s.cycle = 2#3 ∨ s.cycle = 5#3 ∨ s.cycle = 6#3) :
    step s = .next s.advanceCycle ∧ wrapped s = false := by
  rcases h with h | h | h | h <;> simp [step, wrapped, tick, engineStep, h]

theorem step_at_1 {s : State} (h : s.cycle = 1#3) :
    step s = .next (fetchOpcode s).1.advanceCycle ∧ wrapped s = s.nextWraps := by
  simp only [step, wrapped, tick, engineStep, h]; exact ⟨rfl, rfl⟩

theorem step_at_3 {s : State} (h : s.cycle = 3#3) :
    step s = .next (fetchOperandA s).1.advanceCycle ∧ wrapped s = s.nextWraps := by
  simp only [step, wrapped, tick, engineStep, h]; exact ⟨rfl, rfl⟩

theorem step_at_4 {s : State} (h : s.cycle = 4#3) :
    step s = .next (fetchOperandB s).1.advanceCycle ∧ wrapped s = s.nextWraps := by
  simp only [step, wrapped, tick, engineStep, h]; exact ⟨rfl, rfl⟩

theorem step_at_7 {s : State} (h : s.cycle = 7#3) :
    step s = .next (s.setResult (Instr.newResult s.result s.latched)).advanceCycle ∧ wrapped s = false := by
  simp only [step, wrapped, tick, engineStep, h]; exact ⟨by simp [exec_eq], rfl⟩

/-- Everything a tick can do. -/
theorem step_cases {s t : State} (h : step s = .next t) :
    ((s.cycle = 0#3 ∨ s.cycle = 2#3 ∨ s.cycle = 5#3 ∨ s.cycle = 6#3) ∧ t = s.advanceCycle) ∨
    (s.cycle = 1#3 ∧ t = (fetchOpcode s).1.advanceCycle) ∨
    (s.cycle = 3#3 ∧ t = (fetchOperandA s).1.advanceCycle) ∨
    (s.cycle = 4#3 ∧ t = (fetchOperandB s).1.advanceCycle) ∨
    (s.cycle = 7#3 ∧ t = (s.setResult (Instr.newResult s.result s.latched)).advanceCycle) := by
  rcases cycle_cases s.cycle with hc | hc | hc | hc | hc | hc | hc | hc
  · rw [(step_at_idle (by simp [hc])).1] at h; injection h with h; simp [hc, h]
  · rw [(step_at_1 hc).1] at h; injection h with h; simp [hc, h]
  · rw [(step_at_idle (by simp [hc])).1] at h; injection h with h; simp [hc, h]
  · rw [(step_at_3 hc).1] at h; injection h with h; simp [hc, h]
  · rw [(step_at_4 hc).1] at h; injection h with h; simp [hc, h]
  · rw [(step_at_idle (by simp [hc])).1] at h; injection h with h; simp [hc, h]
  · rw [(step_at_idle (by simp [hc])).1] at h; injection h with h; simp [hc, h]
  · rw [(step_at_7 hc).1] at h; injection h with h; simp [hc, h]

theorem fetchOpcode_state (s : State) :
    (fetchOpcode s).1 = ((s.setOpcode s.bus).setCursor (s.cursor.val + 1)).setBus
      (s.mem.read ((s.cursor.val + 1) % s.mem.progLen)) := rfl
theorem fetchOperandA_state (s : State) :
    (fetchOperandA s).1 = ((s.setOperandA s.bus).setCursor (s.cursor.val + 1)).setBus
      (s.mem.read ((s.cursor.val + 1) % s.mem.progLen)) := rfl
theorem fetchOperandB_state (s : State) :
    (fetchOperandB s).1 = ((s.setOperandB s.bus).setCursor (s.cursor.val + 1)).setBus
      (s.mem.read ((s.cursor.val + 1) % s.mem.progLen)) := rfl

@[simp] theorem ticks_zero (s : State) : ticks 0 s = .next s := rfl
theorem ticks_succ_of_step {s t : State} (n : Nat) (h : step s = .next t) : ticks (n + 1) s = ticks n t := by
  simp [ticks, h]

theorem trace_succ_of_step {s t : State} (n : Nat) (h : step s = .next t) :
    trace (n + 1) s = (t, wrapped s) :: trace n t := by
  simp [trace, h]

/-- A run of `n + 1` ticks is a tick and a run of `n`. -/
theorem ticks_succ_cases {n : Nat} {s t : State} (h : ticks (n + 1) s = .next t) :
    ∃ u, step s = .next u ∧ ticks n u = .next t := by
  simp only [ticks] at h
  cases hs : step s with
  | next u => rw [hs] at h; exact ⟨u, rfl, h⟩
  | fault r => cases r
  | refused r => rw [hs] at h; cases h

/-- Runs compose: `m + n` ticks are `m` ticks and then `n`. -/
theorem ticks_add {s t : State} (m n : Nat) (h : ticks m s = .next t) : ticks (m + n) s = ticks n t := by
  induction m generalizing s with
  | zero => simp only [ticks_zero] at h; injection h with h; simp [h]
  | succ m ih =>
    rw [Nat.succ_add]
    simp only [ticks] at h ⊢
    cases hs : step s with
    | next u => rw [hs] at h; exact ih h
    | fault r => cases r
    | refused r => rw [hs] at h; cases h

end Sys2Proof.Machine
end

