-- ==== Sys2Proof/Tests/Slice0.lean ====
section
/-! SUPPORT. The model's own tests. Expected values come from spec/95_test_vectors.md, the rules' examples and
hand calculation from the rules, as each test says; then the witnesses that meet each statement's hypotheses. -/

namespace Sys2Proof.Tests

open Sys2Proof.Machine

/-! ### Helpers -/

/-- The next state an outcome answers, if it is one. -/
def nextState? : Host.Outcome State Fault Refusal → Option State
  | .next t => some t
  | .fault _ => none
  | .refused _ => none

/-- The start state of 95 section 4, at a given cycle. -/
def start4 (cycle : BitVec 3) : State :=
  { mem := Memory.ofWords 0x4#4 [0x1#4, 0x8#4, 0xB#4, 0x2#4, 0x6#4], bus := 0xB#4, opcode := 0x4#4,
    operandA := 0x1#4, operandB := 0x8#4, result := 0x09#5, cycle := cycle, cursor := ⟨3, by decide⟩ }

/-- 95 section 4's wraparound start state: the same with the cursor at the last word. -/
def startWrap (cycle : BitVec 3) : State := ((start4 cycle).setCursor 5).setBus 0x6#4

/-- 95 section 4's cycle-7 vectors: given latches and old result. -/
def at7 (op a b : Word) (r : Result) : State :=
  (((((start4 7#3).setOpcode op).setOperandA a).setOperandB b).setResult r)

/-- An opcode that no admissible `OPC_AND` makes recognised on this machine. -/
def unrecOp : Word := if Config.opcAnd = 0xF#4 then 0xE#4 else 0xF#4

theorem unrecOp_unrecognised :
    unrecOp ≠ 0x4#4 ∧ unrecOp ≠ Config.opcAnd ∧ unrecOp ≠ 0x7#4 ∧ unrecOp ≠ 0xA#4 := by
  unfold unrecOp
  split
  · next h => rw [h]; decide
  · next h => exact ⟨by decide, fun e => h e.symm, by decide, by decide⟩

theorem recognised_unrecOp : recognised unrecOp = false :=
  (recognisedWith_eq_false_iff _ _).2 unrecOp_unrecognised

/-! ### Well-formedness (R50): the check on an unrecognised term's opcode, at each of the four values -/

theorem test_wf_refuses_or_opcode : (Instr.unrecognised 0x4#4 0x1#4 0x8#4).wf = false := by decide
theorem test_wf_refuses_xor_opcode : (Instr.unrecognised 0x7#4 0x3#4 0x5#4).wfWith 0x3#4 = false := by decide
theorem test_wf_refuses_add_opcode : (Instr.unrecognised 0xA#4 0x7#4 0x9#4).wfWith 0x3#4 = false := by decide
theorem test_wf_refuses_and_opcode : (Instr.unrecognised Config.opcAnd 0xC#4 0xA#4).wf = false := by
  simp [Instr.wf, Instr.wfWith, recognisedWith]
theorem test_wf_accepts_unrecognised : (Instr.unrecognised 0xF#4 0x3#4 0x5#4).wfWith 0x3#4 = true := by decide

/-! ### Decoding and encoding: words written out from R46 and R49 -/

/-- 95 section 3.1: `[0x4, 0x1, 0x8]` is `OR 0x1, 0x8`. -/
theorem test_decode_or : decode 0b0100#4 0b0001#4 0b1000#4 = .or 0x1#4 0x8#4 := by decide
/-- 95 section 3.2. -/
theorem test_decode_add : decode 0b1010#4 0b0111#4 0b1001#4 = .add 0x7#4 0x9#4 := by decide
/-- 95 section 3.3. -/
theorem test_decode_xor : decode 0b0111#4 0b0011#4 0b0101#4 = .xor 0x3#4 0x5#4 := by decide
/-- 95 section 6.4, for `OPC_AND = 0x0`; and for the machine's own value. -/
theorem test_decode_and : decodeWith 0x0#4 0x0#4 0xC#4 0xA#4 = .and 0xC#4 0xA#4 := by decide
theorem test_decode_and_machine : decode Config.opcAnd 0xC#4 0xA#4 = .and 0xC#4 0xA#4 := decode_opcAnd _ _
/-- 95 section 6.3, the two cases of `OPC_AND`. -/
theorem test_decode_unrecognised : decodeWith 0x3#4 0xF#4 0x3#4 0x5#4 = .unrecognised 0xF#4 0x3#4 0x5#4 := by decide
theorem test_decode_and_at_F : decodeWith 0xF#4 0xF#4 0x3#4 0x5#4 = .and 0x3#4 0x5#4 := by decide
/-- R45: two words are no instruction. -/
theorem test_decode_truncated : (match decodeStream [0x4#4, 0x1#4] with | .error e => some e | .ok _ => none) =
    some DecodeError.truncated := by decide
/-- 95 section 6.1: `ADD 0xF, 0x1` is words 0xA 0xF 0x1, packed 0xAF1. -/
theorem test_encode_add : encode (.add 0xF#4 0x1#4) = [0xA#4, 0xF#4, 0x1#4] := by decide
theorem test_table_add : decodeTableWord 16 0xAF1 = some (.add 0xF#4 0x1#4) := by decide
theorem test_table_none : decodeTableWord 16 0x1AF1 = none := by decide
/-- R52's syntax, on the glosses of 95 section 1. -/
theorem test_text_or : (Instr.or 0x1#4 0x8#4).chars = ['O', 'R', ' ', '0', 'x', '1', ',', ' ', '0', 'x', '8'] := by decide
theorem test_parse_add : parseInstr ['A', 'D', 'D', ' ', '0', 'x', 'F', ',', ' ', '0', 'x', '1'] =
    some (.add 0xF#4 0x1#4) := by decide
theorem test_parse_op_refuses_recognised :
    parseInstr ['.', 'o', 'p', ' ', '0', 'x', '4', ',', ' ', '0', 'x', '1', ',', ' ', '0', 'x', '8'] = none := by decide

/-! ### The ALU and the meanings (95 sections 2.5 and 4) -/

theorem test_or_clears_carry : (nextState? (exec (.or 0x2#4 0x4#4) (at7 0x4#4 0x2#4 0x4#4 0b10000#5))).map State.result =
    some 0b00110#5 := by decide
theorem test_and_clears_carry : (nextState? (exec (.and 0xC#4 0xA#4) (at7 0x0#4 0xC#4 0xA#4 0b10000#5))).map State.result =
    some 0b01000#5 := by decide
/-- Conflict C7: XOR 3, 5 is 6. -/
theorem test_xor_3_5 : (nextState? (exec (.xor 0x3#4 0x5#4) (at7 0x7#4 0x3#4 0x5#4 0#5))).map State.result =
    some 0b00110#5 := by decide
theorem test_add_largest : (nextState? (exec (.add 0xF#4 0xF#4) (at7 0xA#4 0xF#4 0xF#4 0x09#5))).map State.result =
    some 0b11110#5 := by decide
theorem test_add_largest_without_carry :
    (nextState? (exec (.add 0x7#4 0x8#4) (at7 0xA#4 0x7#4 0x8#4 0b11110#5))).map State.carry = some false := by decide
theorem test_unrecognised_holds :
    nextState? (exec (.unrecognised 0xF#4 0x3#4 0x5#4) (at7 0xF#4 0x3#4 0x5#4 0b10000#5)) =
      some (at7 0xF#4 0x3#4 0x5#4 0b10000#5) := by decide
theorem test_alu_and_opcode : aluWith 0x3#4 0x3#4 0xC#4 0xA#4 = (true, 0b01000#5) := by decide
theorem test_alu_unrecognised : (aluWith 0x3#4 0xF#4 0x3#4 0x5#4).1 = false := by decide

/-! ### One tick (95 section 4, with the cycle advance of R83) -/

theorem test_tick_cycle0 : nextState? (step (start4 0#3)) = some (start4 1#3) := by decide
theorem test_tick_cycle1 : nextState? (step (start4 1#3)) =
    some ((((start4 2#3).setOpcode 0xB#4).setCursor 4).setBus 0x2#4) := by decide
theorem test_tick_cycle3 : nextState? (step (start4 3#3)) =
    some ((((start4 4#3).setOperandA 0xB#4).setCursor 4).setBus 0x2#4) := by decide
theorem test_tick_cycle4_wraps : nextState? (step (startWrap 4#3)) =
    some ((((start4 5#3).setOperandB 0x6#4).setCursor 0).setBus 0x4#4) := by decide
theorem test_wrapped_cycle4 : wrapped (startWrap 4#3) = true ∧ wrapped (start4 4#3) = false := by decide
theorem test_wrapped_no_refill : wrapped (startWrap 5#3) = false ∧ wrapped (startWrap 7#3) = false := by decide
/-- 95 section 4: `ADD 0x7, 0x9` sets the carry, and cycle 7 goes to 0 without a refill. -/
theorem test_tick_cycle7 : nextState? (step (at7 0xA#4 0x7#4 0x9#4 0#5)) =
    some ((at7 0xA#4 0x7#4 0x9#4 0b10000#5).setCycle 0#3) := by decide

/-! ### Program source and reset -/

/-- 95 section 5, `PROG = [0x9]`: a call returns (0x9, 1). -/
theorem test_next_one_word : (State.resetWith (Memory.ofWords 0x9#4 [])).next.2 = (0x9#4, true) := by decide
/-- 95 section 5, `PROG = [0x4, 0x3]`: the first call returns (0x3, 0). -/
theorem test_next_two_words : (State.resetWith (Memory.ofWords 0x4#4 [0x3#4])).next.2 = (0x3#4, false) := by decide
/-- R100: the low 4 bits of each element; the empty list is refused. -/
theorem test_construct : (Memory.construct [0x14, 0x20, 0x8]).map (fun m => [m.read 0, m.read 1, m.read 2]) =
    some [0x4#4, 0x0#4, 0x8#4] := by decide
theorem test_construct_empty : Memory.construct [] = none := by decide
/-- The check of the canonical form refuses a listed 0x0, an index out of order, and one past the end. -/
theorem test_memory_wf_refuses : Memory.wf ⟨2, [(1, 0x0#4)]⟩ = false ∧ Memory.wf ⟨2, [(1, 0x3#4), (0, 0x2#4)]⟩ = false ∧
    Memory.wf ⟨2, [(3, 0x3#4)]⟩ = false := by decide
/-- 95 section 3.1, row reset. -/
theorem test_reset : State.resetWith (Memory.ofWords 0x4#4 [0x1#4, 0x8#4]) =
    ⟨Memory.ofWords 0x4#4 [0x1#4, 0x8#4], 0x4#4, 0#4, 0#4, 0#4, 0#5, 0#3, ⟨0, by decide⟩⟩ := by decide
/-- 95 section 3.1, tick 8, from the loaded word of 0x418: `result` is 0b01001. -/
theorem test_loaded_word_runs : (nextState? (step (State.reset.withFetchWord 16 0x418))).map State.result =
    some 0b01001#5 := by decide

/-! ### Witnesses: for each statement with hypotheses, an input that meets them all -/

/-- `[0x4, 0x1, 0x8, 0xB, 0x2, 0x6]` at any cycle, with the bus on the word under the cursor. -/
theorem inv_start4 (c : BitVec 3) : Inv (start4 c) := ⟨by decide +revert, by show ResultPossible 0x09#5; decide⟩

/-- At the wrap point. -/
theorem inv_startWrap (c : BitVec 3) : Inv (startWrap c) := ⟨by decide +revert, by show ResultPossible 0x09#5; decide⟩

/-- For the statements on OR, AND, XOR, ADD and the ALU's identities. -/
theorem witness_admissibleAnd : Config.AdmissibleAnd 0x3#4 := by decide

theorem witness_UnrecognisedOpcodeHoldsEverything :
    ((0xF#4 : Word) ≠ 0x4#4 ∧ (0xF#4 : Word) ≠ 0x3#4 ∧ (0xF#4 : Word) ≠ 0x7#4 ∧ (0xF#4 : Word) ≠ 0xA#4) ∧
    (at7 unrecOp 0x3#4 0x5#4 0b10000#5).cycle = 7#3 ∧ (at7 unrecOp 0x3#4 0x5#4 0b10000#5).opcode ≠ 0x4#4 ∧
    (at7 unrecOp 0x3#4 0x5#4 0b10000#5).opcode ≠ Config.opcAnd ∧
    (at7 unrecOp 0x3#4 0x5#4 0b10000#5).opcode ≠ 0x7#4 ∧ (at7 unrecOp 0x3#4 0x5#4 0b10000#5).opcode ≠ 0xA#4 :=
  ⟨by decide, rfl, unrecOp_unrecognised⟩

theorem witness_AluIdentities_carry : Config.AdmissibleAnd 0x3#4 ∧ (0x8#4 : Word).toNat + (0x8#4 : Word).toNat ≥ 16 := by
  decide

theorem witness_DecodeOfEncodeIsTheInstruction :
    Config.AdmissibleAnd 0x3#4 ∧ (Instr.unrecognised 0xF#4 0x3#4 0x5#4).wfWith 0x3#4 = true := by decide

theorem witness_AssembledProgramDecodesInstructionByInstruction :
    Config.AdmissibleAnd 0x3#4 ∧
    (∀ i ∈ [Instr.or 0x1#4 0x8#4, Instr.unrecognised 0xF#4 0x3#4 0x5#4], i.wfWith 0x3#4 = true) ∧
    1 < [Instr.or 0x1#4 0x8#4, Instr.unrecognised 0xF#4 0x3#4 0x5#4].length := by decide

theorem witness_AssemblerTextReadsBack : (Instr.or 0x1#4 0x8#4).wfWith 0x3#4 = true ∧
    (Instr.unrecognised 0xF#4 0x3#4 0x5#4).wfWith 0x3#4 = true := by decide

theorem witness_TableNumberingIsThePacking : 12 ≤ 12 ∧ 4096 ≤ 4096 % 2 ^ 16 := by decide

/-- Both branches of R97: inside the program and at its end. -/
theorem witness_NextAdvancesThenReads :
    (start4 1#3).cursor.val ≠ (start4 1#3).mem.progLen - 1 ∧
    (startWrap 1#3).cursor.val = (startWrap 1#3).mem.progLen - 1 := by decide

theorem witness_CallNumberJOfNext : (State.resetWith (start4 0#3).mem).cursor.val = 0 := by decide

theorem witness_ResetEventForgetsTheRegisters :
    (start4 1#3).mem = (startWrap 6#3).mem ∧ start4 1#3 ≠ startWrap 6#3 := by decide

theorem witness_IdleCyclesChangeOnlyTheCycle :
    (start4 0#3).cycle = 0#3 ∧ (start4 2#3).cycle = 2#3 ∧ (start4 5#3).cycle = 5#3 ∧ (start4 6#3).cycle = 6#3 := by
  decide

/-- For the statements on cycles 1, 3, 4 and 7, `wrapped` true and false; also the clauses of
StepIsIdempotentWhereNoRefillHappens and of ResultAgreesWithTheLatchesAfterExecute. -/
theorem witness_refill_and_execute_cycles :
    (start4 1#3).cycle = 1#3 ∧ (startWrap 1#3).cycle = 1#3 ∧ (start4 3#3).cycle = 3#3 ∧ (startWrap 3#3).cycle = 3#3 ∧
    (start4 4#3).cycle = 4#3 ∧ (startWrap 4#3).cycle = 4#3 ∧
    (at7 0x4#4 0x1#4 0x8#4 0#5).cycle = 7#3 ∧ recognised (at7 0x4#4 0x1#4 0x8#4 0#5).opcode = true := by decide

theorem witness_StepRunsTheDecodedInstruction : (at7 0x4#4 0x1#4 0x8#4 0#5).cycle = 7#3 ∧
    decodeStream [(at7 0x4#4 0x1#4 0x8#4 0#5).opcode, (at7 0x4#4 0x1#4 0x8#4 0#5).operandA,
      (at7 0x4#4 0x1#4 0x8#4 0#5).operandB] = .ok (.or 0x1#4 0x8#4, []) := ⟨rfl, rfl⟩

theorem witness_engineStep_answers : ∃ u v w, (engineStep (start4 0#3)).1 = .next u ∧
    (engineStep (start4 1#3)).1 = .next v ∧ (engineStep (at7 0x4#4 0x1#4 0x8#4 0#5)).1 = .next w :=
  ⟨_, _, _, rfl, rfl, rfl⟩

/-- For NoRunChangesTheProgram, TickIsStepThenCycleAdvance and EightTicksAdvanceTheCursorByThree. -/
theorem witness_ticks_answer :
    let s := State.resetWith (Memory.ofWords 0x4#4 [0x1#4, 0x8#4])
    (nextState? (ticks 8 s)).isSome = true := by decide

/-- For RegistersHoldOutsideTheirCycles: a tick at cycle 0 meets every clause's hypothesis. -/
theorem witness_RegistersHoldOutsideTheirCycles : step (start4 0#3) = .next (start4 1#3) ∧
    (start4 0#3).cycle ≠ 1#3 ∧ (start4 0#3).cycle ≠ 3#3 ∧ (start4 0#3).cycle ≠ 4#3 ∧ (start4 0#3).cycle ≠ 7#3 :=
  ⟨rfl, by decide, by decide, by decide, by decide⟩

theorem witness_ResultChangesOnlyByARecognisedExecute :
    (nextState? (step (at7 0x4#4 0x1#4 0x8#4 0#5))).map State.result = some 0x09#5 ∧
    (at7 0x4#4 0x1#4 0x8#4 0#5).result ≠ 0x09#5 := by decide

/-- A tick at cycle 7 on ADD, OR, AND, XOR, an unrecognised opcode, and a tick at another cycle. -/
theorem witness_CarryIsWrittenByRecognisedExecuteOnly :
    (∃ t, step (at7 0xA#4 0xF#4 0x1#4 0#5) = .next t) ∧ (∃ t, step (at7 0x4#4 0x1#4 0x8#4 0b10000#5) = .next t) ∧
    (∃ t, step (at7 Config.opcAnd 0xC#4 0xA#4 0b10000#5) = .next t) ∧
    (∃ t, step (at7 0x7#4 0x9#4 0x9#4 0b11110#5) = .next t) ∧
    (∃ t, step (at7 unrecOp 0x3#4 0x5#4 0b10000#5) = .next t) ∧ ∃ t, step (start4 1#3) = .next t :=
  ⟨⟨_, (step_at_7 rfl).1⟩, ⟨_, (step_at_7 rfl).1⟩, ⟨_, (step_at_7 rfl).1⟩, ⟨_, (step_at_7 rfl).1⟩,
    ⟨_, (step_at_7 rfl).1⟩, ⟨_, (step_at_1 rfl).1⟩⟩

theorem witness_EveryStepKeepsTheInvariant :
    Inv (start4 1#3) ∧ (start4 1#3).mem.wf = true ∧ (∃ t, step (start4 1#3) = .next t) ∧
      ∃ u, (engineStep (start4 1#3)).1 = .next u :=
  ⟨inv_start4 _, by decide, ⟨_, rfl⟩, ⟨_, rfl⟩⟩

theorem witness_ReachableStatesSatisfyRuleNineteen :
    ∃ s, s ≠ State.resetWith (start4 0#3).mem ∧ Reachable (start4 0#3).mem s :=
  ⟨(State.resetWith (start4 0#3).mem).advanceCycle, by decide, .tick .reset (step_at_idle (.inl rfl)).1⟩

theorem witness_FourTicksLatchThreeBusWords : (start4 1#3).cycle = 1#3 ∧ Inv (start4 1#3) := ⟨rfl, inv_start4 _⟩

/-- For EightTicksRunOneInstruction and InstructionBoundariesRepeatAfterThreePasses, away from the wrap and at it. -/
theorem witness_instruction_start : (Inv (start4 0#3) ∧ (start4 0#3).cycle = 0#3) ∧
    (Inv (startWrap 0#3) ∧ (startWrap 0#3).cycle = 0#3) :=
  ⟨⟨inv_start4 _, rfl⟩, ⟨inv_startWrap _, rfl⟩⟩

/-- The program `[0x4, 0x1, 0x8]` after reset, of which the first instruction is `OR 0x1, 0x8`. -/
theorem inv_resetOr : Inv (State.resetWith (Memory.ofWords 0x4#4 [0x1#4, 0x8#4])) :=
  ⟨by decide, by decide⟩

theorem witness_AnInstructionIsFetchThenExec :
    let s := State.resetWith (Memory.ofWords 0x4#4 [0x1#4, 0x8#4])
    Inv s ∧ s.cycle = 0#3 ∧
      decode (s.mem.read s.cursor) (wordFrom s.mem s.cursor 1) (wordFrom s.mem s.cursor 2) = .or 0x1#4 0x8#4 :=
  ⟨inv_resetOr, rfl, by decide⟩

theorem witness_UnrecognisedInstructionKeepsAStaleCarry :
    let s := (State.resetWith (Memory.ofWords unrecOp [0x3#4, 0x5#4])).setResult 0b10000#5
    Inv s ∧ s.cycle = 0#3 ∧ recognised (s.mem.read s.cursor) = false := by
  refine ⟨⟨rfl, by show ResultPossible 0b10000#5; decide⟩, rfl, ?_⟩
  show recognised ((Memory.ofWords unrecOp [0x3#4, 0x5#4]).read 0) = false
  rw [Memory.read_ofWords]
  exact recognised_unrecOp

theorem witness_BusIsSteadyUntilTheNextOpcodeLatch : (start4 5#3).cycle = 5#3 ∧ 4 ≤ 4 := by decide

theorem witness_FirstTicksAfterReset : 7 ≤ 7 := by decide

/-- Two states that differ in every register but the cursor, the bus and the cycle. -/
theorem witness_RecognisedInstructionForgetsThePast :
    let s := State.resetWith (Memory.ofWords 0x4#4 [0x1#4, 0x8#4])
    let t := (((s.setOpcode 0xA#4).setOperandA 0x2#4).setOperandB 0x3#4).setResult 0b10000#5
    Inv s ∧ Inv t ∧ s.cycle = 0#3 ∧ t.cycle = 0#3 ∧ s.mem = t.mem ∧ s.cursor.val = t.cursor.val ∧
      recognised (s.mem.read s.cursor) = true ∧ s ≠ t :=
  ⟨inv_resetOr, ⟨by decide, by decide⟩, rfl, rfl, rfl, rfl, by decide, by decide⟩

theorem witness_OneWordProgramNeverMoves :
    Inv (State.resetWith (Memory.ofWords 0xA#4 [])) ∧ (State.resetWith (Memory.ofWords 0xA#4 [])).mem.progLen = 1 ∧
      8 ≤ 8 := ⟨⟨by decide, by decide⟩, rfl, by decide⟩

theorem witness_LoadedWordRunsNext : 12 ≤ 16 ∧ decodeTableWord 16 0x418 = some (.or 0x1#4 0x8#4) := by decide

end Sys2Proof.Tests
end

/-! PROOFS. The registers and the invariant of R19: what a tick writes, register by register, what an instruction
leaves after seven and eight ticks, and the statements that follow. -/

namespace Sys2Proof.Machine

/-! ### The result register's two parts (R15, R19) -/

/-- `result = 16 * carry + value` (R15), of any 5-bit value. -/
theorem result_toNat (r : Result) : r.toNat = 16 * (carryOf r).toNat + (valueOf r).toNat := by
  rw [← packResult_toNat, packResult_carry_value]

theorem carryOf_eq_decide (r : Result) : carryOf r = decide (r.toNat > 15) := by
  have hr := result_toNat r
  have hv := (valueOf r).isLt
  cases hc : carryOf r <;> simp only [hc, Bool.toNat_true, Bool.toNat_false] at hr
  · exact (decide_eq_false (by omega)).symm
  · exact (decide_eq_true (by omega)).symm

/-- Item 3 of R19 leaves out the one value 31. -/
theorem resultPossible_iff_toNat_le (r : Result) : ResultPossible r ↔ r.toNat ≤ 30 := by
  have hr := result_toNat r
  have hv := (valueOf r).isLt
  cases hc : carryOf r <;> simp only [ResultPossible, hc, Bool.toNat_true, Bool.toNat_false] at hr ⊢
  · exact iff_of_true nofun (by omega)
  · exact ⟨fun h => by have := h trivial; omega, fun _ _ => by omega⟩

theorem resultPossible_packResult_false (v : Word) : ResultPossible (packResult false v) := by
  simp [ResultPossible]

theorem resultPossible_addResult (a b : Word) : ResultPossible (addResult a b) := by
  have ha := a.isLt
  have hb := b.isLt
  rw [resultPossible_iff_toNat_le, addResult_toNat]
  omega

/-- Every operation's result is a possible one, and the unrecognised instruction holds a possible one. -/
theorem resultPossible_newResult {old : Result} (h : ResultPossible old) (i : Instr) :
    ResultPossible (Instr.newResult old i) := by
  cases i with
  | or a b => exact resultPossible_packResult_false _
  | and a b => exact resultPossible_packResult_false _
  | xor a b => exact resultPossible_packResult_false _
  | add a b => exact resultPossible_addResult a b
  | unrecognised op a b => exact h

/-! ### What `result` holds after an instruction, opcode by opcode (R49, R60) -/

theorem recognised_iff (op : Word) :
    recognised op = true ↔ op = 0x4#4 ∨ op = Config.opcAnd ∨ op = 0x7#4 ∨ op = 0xA#4 := by
  rw [← Bool.not_eq_false, recognised, recognisedWith_eq_false_iff]
  tauto

theorem resultAfter_or (old : Result) (a b : Word) : resultAfter old 0x4#4 a b = orResult a b := rfl

theorem resultAfter_and (old : Result) (a b : Word) : resultAfter old Config.opcAnd a b = andResult a b := by
  simp [resultAfter, alu, aluWith_and Config.opcAnd_admissible]

theorem resultAfter_xor (old : Result) (a b : Word) : resultAfter old 0x7#4 a b = xorResult a b := by
  simp [resultAfter, alu, aluWith_xor Config.opcAnd_admissible]

theorem resultAfter_add (old : Result) (a b : Word) : resultAfter old 0xA#4 a b = addResult a b := by
  simp [resultAfter, alu, aluWith_add Config.opcAnd_admissible]

theorem resultAfter_of_recognised {op : Word} (h : recognised op = true) (old : Result) (a b : Word) :
    resultAfter old op a b = (alu op a b).2 :=
  if_pos ((aluWith_valid _ op a b).trans h)

theorem resultAfter_of_unrecognised {op : Word} (h : recognised op = false) (old : Result) (a b : Word) :
    resultAfter old op a b = old := by
  simp [resultAfter, alu, aluWith_unrecognised h]

/-- The decoder and the ALU agree: executing the decoded instruction leaves what R90 says. -/
theorem newResult_decode (old : Result) (op a b : Word) :
    Instr.newResult old (decode op a b) = resultAfter old op a b := by
  cases h : recognised op with
  | false =>
    rw [resultAfter_of_unrecognised h, decode, decodeWith_unrecognised h]
    rfl
  | true =>
    rcases (recognised_iff op).1 h with rfl | rfl | rfl | rfl
    · rfl
    · rw [decode_opcAnd, resultAfter_and]
      rfl
    · rw [resultAfter_xor]
      rfl
    · rw [resultAfter_add]
      rfl

/-- R15: what the execute cycle writes to the carry. -/
theorem carryOf_resultAfter (old : Result) (op a b : Word) :
    carryOf (resultAfter old op a b) =
      if op = 0xA#4 then decide (a.toNat + b.toNat > 15)
      else if op = 0x4#4 ∨ op = Config.opcAnd ∨ op = 0x7#4 then false
      else carryOf old := by
  cases h : recognised op with
  | false =>
    obtain ⟨hor, hand, hxor, hadd⟩ := (recognisedWith_eq_false_iff _ op).1 h
    simp [resultAfter_of_unrecognised h, hor, hand, hxor, hadd]
  | true =>
    rcases (recognised_iff op).1 h with rfl | rfl | rfl | rfl
    · simp [resultAfter_or, orResult]
    · have hne : Config.opcAnd ≠ 0xA#4 := Config.opcAnd_ne_opcAdd
      simp [resultAfter_and, andResult, hne]
    · simp [resultAfter_xor, xorResult]
    · rw [resultAfter_add, carryOf_eq_decide, addResult_toNat, if_pos rfl]

/-! ### What a tick writes, register by register (R76 to R83) -/

/-- The cycles that call `next()` (R85). -/
abbrev RefillCycle (c : BitVec 3) : Prop := c = 1#3 ∨ c = 3#3 ∨ c = 4#3

/-- The registers after a tick from `s`, each by its own cycles (R11 to R17). -/
structure TickWrites (s t : State) : Prop where
  mem : t.mem = s.mem
  bus : t.bus = if RefillCycle s.cycle then s.mem.read ((s.cursor.val + 1) % s.mem.progLen) else s.bus
  opcode : t.opcode = if s.cycle = 1#3 then s.bus else s.opcode
  operandA : t.operandA = if s.cycle = 3#3 then s.bus else s.operandA
  operandB : t.operandB = if s.cycle = 4#3 then s.bus else s.operandB
  result : t.result =
    if s.cycle = 7#3 then resultAfter s.result s.opcode s.operandA s.operandB else s.result
  cycle : t.cycle = s.cycle + 1#3
  cursor : t.cursor.val = if RefillCycle s.cycle then (s.cursor.val + 1) % s.mem.progLen else s.cursor.val

theorem step_writes {s t : State} (h : step s = .next t) : TickWrites s t := by
  rcases step_cases h with ⟨hc | hc | hc | hc, rfl⟩ | ⟨hc, rfl⟩ | ⟨hc, rfl⟩ | ⟨hc, rfl⟩ | ⟨hc, rfl⟩
  case inr.inr.inr.inr => constructor <;> simp [hc, State.latched, newResult_decode]
  all_goals constructor <;> simp [hc, fetchOpcode_state, fetchOperandA_state, fetchOperandB_state]

theorem not_refillCycle_iff (c : BitVec 3) :
    ¬ RefillCycle c ↔ (c = 0#3 ∨ c = 2#3 ∨ c = 5#3 ∨ c = 6#3) ∨ c = 7#3 := by
  revert c; decide

/-- D4: without a refill there is no wraparound to report. -/
theorem wrapped_of_not_refillCycle {s : State} (h : ¬ RefillCycle s.cycle) : wrapped s = false := by
  rcases (not_refillCycle_iff _).1 h with hidle | h7
  · exact (step_at_idle hidle).2
  · exact (step_at_7 h7).2

/-- A tick is its `Step` and the cycle advance (R83). -/
theorem step_of_engineStep {s u : State} (h : (engineStep s).1 = .next u) : step s = .next u.advanceCycle := by
  simp [step, tick, h]

theorem engineStep_mem {s u : State} (h : (engineStep s).1 = .next u) : u.mem = s.mem :=
  (step_writes (step_of_engineStep h)).mem

/-! ### The invariant of R19 -/

/-- The invariant does not speak of the cycle. -/
theorem inv_advanceCycle_iff (s : State) : Inv s.advanceCycle ↔ Inv s :=
  ⟨fun ⟨hb, hr⟩ => ⟨hb, hr⟩, fun ⟨hb, hr⟩ => ⟨hb, hr⟩⟩

theorem inv_resetWith (m : Memory) : Inv (State.resetWith m) := ⟨rfl, by simp [carryOf]⟩

/-- A refill puts the bus on the word under the cursor, wherever it was before. -/
theorem inv_refill {s : State} (h : ResultPossible s.result) : Inv s.refill.1 := ⟨rfl, h⟩

theorem inv_setResult {s : State} (h : Inv s) {r : Result} (hr : ResultPossible r) : Inv (s.setResult r) :=
  ⟨h.busIsWord, hr⟩

theorem inv_step {s t : State} (h : Inv s) (hst : step s = .next t) : Inv t := by
  have hr := h.resultPossible
  rcases step_cases hst with ⟨-, rfl⟩ | ⟨-, rfl⟩ | ⟨-, rfl⟩ | ⟨-, rfl⟩ | ⟨-, rfl⟩ <;> rw [inv_advanceCycle_iff]
  · exact h
  · exact inv_refill (s := s.latchOpcode) hr
  · exact inv_refill (s := s.latchOperandA) hr
  · exact inv_refill (s := s.latchOperandB) hr
  · exact inv_setResult h (resultPossible_newResult hr _)

theorem inv_engineStep {s u : State} (h : Inv s) (hsu : (engineStep s).1 = .next u) : Inv u :=
  (inv_advanceCycle_iff u).1 (inv_step h (step_of_engineStep hsu))

theorem reachable_mem {m : Memory} {s : State} (h : Reachable m s) : s.mem = m := by
  induction h with
  | reset => rfl
  | tick _ hst ih => exact (step_writes hst).mem.trans ih
  | engine _ hsu ih => exact (engineStep_mem hsu).trans ih

theorem inv_of_reachable {m : Memory} {s : State} (h : Reachable m s) : Inv s := by
  induction h with
  | reset => exact inv_resetWith m
  | tick _ hst ih => exact inv_step ih hst
  | engine _ hsu ih => exact inv_engineStep ih hsu

/-! ### A whole instruction (R89, R90) -/

/-- The machine at its execute cycle, seven ticks after it began an instruction in `s`: the opcode latched is the word
that was on the bus, the operands are the two words after the cursor. -/
def State.fetched (s : State) : State :=
  { mem := s.mem, bus := wordFrom s.mem s.cursor 3, opcode := s.bus, operandA := wordFrom s.mem s.cursor 1,
    operandB := wordFrom s.mem s.cursor 2, result := s.result, cycle := 7#3, cursor := s.mem.index (s.cursor.val + 3) }

/-- The fetch is the same from every state at cycle 0, whatever the bus shows. -/
theorem ticks_seven {s : State} (h : s.cycle = 0#3) : ticks 7 s = .next s.fetched := by
  rw [ticks_succ_of_step 6 (step_at_idle (by simp [h])).1,
    ticks_succ_of_step 5 (step_at_1 (by simp [h])).1,
    ticks_succ_of_step 4 (step_at_idle (by simp [h, fetchOpcode_state])).1,
    ticks_succ_of_step 3 (step_at_3 (by simp [h, fetchOpcode_state])).1,
    ticks_succ_of_step 2 (step_at_4 (by simp [h, fetchOpcode_state, fetchOperandA_state])).1,
    ticks_succ_of_step 1
      (step_at_idle (by simp [h, fetchOpcode_state, fetchOperandA_state, fetchOperandB_state])).1,
    ticks_succ_of_step 0
      (step_at_idle (by simp [h, fetchOpcode_state, fetchOperandA_state, fetchOperandB_state])).1, ticks_zero]
  refine congrArg Host.Outcome.next ?_
  apply State.eq_of_fields <;>
    simp [h, State.fetched, wordFrom, fetchOpcode_state, fetchOperandA_state, fetchOperandB_state, Nat.add_assoc]

/-- An instruction is its fetch and the execute cycle. -/
theorem ticks_eight {s : State} (h : s.cycle = 0#3) :
    ticks 8 s = .next (s.fetched.setResult (resultAfter s.result s.bus (wordFrom s.mem s.cursor 1)
      (wordFrom s.mem s.cursor 2))).advanceCycle := by
  rw [ticks_add 7 1 (ticks_seven h), ticks_succ_of_step 0 (step_at_7 rfl).1, ticks_zero]
  simp only [State.latched, newResult_decode]
  rfl

/-! ### The statements -/

/-- Settles O33, by the five cases of a tick; the `Step` inside a tick differs from it in the cycle alone. -/
theorem everyStepKeepsTheInvariant : Obligations.EveryStepKeepsTheInvariant := fun _ h =>
  ⟨fun _ hst => ⟨inv_step h hst, fun hwf => (step_writes hst).mem ▸ hwf⟩, fun _ hsu => inv_engineStep h hsu⟩

/-- Settles O30, from the registers' writes of a tick. -/
theorem registersHoldOutsideTheirCycles : Obligations.RegistersHoldOutsideTheirCycles := by
  intro s t hst
  have w := step_writes hst
  refine ⟨fun h => w.opcode.trans (if_neg h), fun h => w.operandA.trans (if_neg h),
    fun h => w.operandB.trans (if_neg h), fun h => w.result.trans (if_neg h), fun h1 h3 h4 => ?_⟩
  have hno : ¬ RefillCycle s.cycle := by simp [RefillCycle, h1, h3, h4]
  exact ⟨w.bus.trans (if_neg hno), w.cursor.trans (if_neg hno), wrapped_of_not_refillCycle hno⟩

/-- Settles O31: outside cycle 7, and at an unrecognised opcode, `result` holds. -/
theorem resultChangesOnlyByARecognisedExecute : Obligations.ResultChangesOnlyByARecognisedExecute := by
  intro s t hst hne
  have hres := (step_writes hst).result
  by_cases hc : s.cycle = 7#3
  · rw [if_pos hc] at hres
    have hrec : recognised s.opcode = true := by
      by_contra hf
      exact hne (hres.trans (resultAfter_of_unrecognised (Bool.eq_false_iff.2 hf) _ _ _))
    exact ⟨hc, (recognised_iff _).1 hrec, hres.trans (resultAfter_of_recognised hrec _ _ _)⟩
  · exact absurd (hres.trans (if_neg hc)) hne

/-- Settles O32, from what the execute cycle writes to the carry. -/
theorem carryIsWrittenByRecognisedExecuteOnly : Obligations.CarryIsWrittenByRecognisedExecuteOnly := by
  refine ⟨fun s => result_toNat s.result, fun s t hst => ?_⟩
  rw [State.carry, (step_writes hst).result]
  split
  · exact carryOf_resultAfter _ _ _ _
  · rfl

/-- Settles O34, by induction on how the state is reached. -/
theorem reachableStatesSatisfyRuleNineteen : Obligations.ReachableStatesSatisfyRuleNineteen := by
  intro m s h
  obtain rfl := reachable_mem h
  obtain ⟨hbus, hres⟩ := inv_of_reachable h
  exact ⟨rfl, s.cursor.isLt, hbus, hres⟩

/-- Settles O43: the state after the eight ticks names the old latches nowhere, and the old `result` only where the
opcode is not recognised. -/
theorem recognisedInstructionForgetsThePast : Obligations.RecognisedInstructionForgetsThePast := by
  intro s t hs ht hcs hct hmem hcur hrec
  have hbus : s.bus = t.bus := by rw [hs.busIsWord, ht.busIsWord, hcur, hmem]
  rw [← hs.busIsWord] at hrec
  rw [ticks_eight hcs, ticks_eight hct, resultAfter_of_recognised hrec, resultAfter_of_recognised (hbus ▸ hrec)]
  refine congrArg Host.Outcome.next ?_
  apply State.eq_of_fields <;> simp [State.fetched, hmem, hcur, hbus]

/-- Settles O18: priming puts the word at index 0 on the bus, and `result` is 0. -/
theorem resetHasTheInvariant : Obligations.ResetHasTheInvariant :=
  ⟨inv_resetWith, inv_resetWith _, Memory.wf_ofWords _ _⟩

end Sys2Proof.Machine

/-! PROOFS. The program memory over a run of any length (R30, R41). -/

namespace Sys2Proof.Machine

/-- No tick writes the program memory, and a run is its ticks. -/
theorem ticks_mem {n : Nat} {s t : State} (h : ticks n s = .next t) : t.mem = s.mem := by
  induction n generalizing s with
  | zero =>
    rw [ticks_zero] at h
    injection h with h
    rw [h]
  | succ n ih =>
    obtain ⟨u, hstep, hrun⟩ := ticks_succ_cases h
    exact (ih hrun).trans (step_writes hstep).mem

/-- Settles O29: equal memories read alike at every index. -/
theorem noRunChangesTheProgram : Obligations.NoRunChangesTheProgram := by
  intro n s t h
  have hmem : t.mem = s.mem := ticks_mem h
  exact ⟨hmem, fun i => by rw [hmem]⟩

end Sys2Proof.Machine

/-! PROOFS. The encoding: the decoder and the encoder are inverse (R46, R49, R54), in a program's words, in the
assembler's text (R52) and in the opcode table's numbers (R47); then the execute cycle as `exec` of the decoded
instruction. -/

namespace Sys2Proof

/-! ### The decoder and the encoder -/

theorem wfWith_unrecognised_iff (p op a b : Word) :
    (Instr.unrecognised op a b).wfWith p = true ↔ recognisedWith p op = false := by
  simp [Instr.wfWith]

/-- The decoder inverts the encoder on the three words of one instruction; R6's constraint on
`OPC_AND` keeps the row of AND from being shadowed by another. -/
theorem decodeWith_encoding {p : Word} (hp : Config.AdmissibleAnd p) {i : Instr} (hi : i.wfWith p = true) :
    decodeWith p (i.opWith p) i.opndA i.opndB = i := by
  cases i with
  | or a b => exact decodeWith_or p a b
  | and a b => exact decodeWith_and hp a b
  | xor a b => exact decodeWith_xor p a b
  | add a b => exact decodeWith_add p a b
  | unrecognised op a b => exact decodeWith_unrecognised ((wfWith_unrecognised_iff p op a b).1 hi) a b

theorem decodeStreamWith_encodeWith {p : Word} (hp : Config.AdmissibleAnd p) {i : Instr} (hi : i.wfWith p = true)
    (rest : List Word) : decodeStreamWith p (encodeWith p i ++ rest) = .ok (i, rest) :=
  congrArg (fun j => Except.ok (j, rest)) (decodeWith_encoding hp hi)

/-- The rows of the opcode map (R49, R50), for any value of `OPC_AND`. -/
theorem decodeWith_cases (p op a b : Word) :
    (op = Config.opcOr ∧ decodeWith p op a b = .or a b) ∨ (op = Config.opcXor ∧ decodeWith p op a b = .xor a b) ∨
    (op = Config.opcAdd ∧ decodeWith p op a b = .add a b) ∨ (op = p ∧ decodeWith p op a b = .and a b) ∨
    (recognisedWith p op = false ∧ decodeWith p op a b = .unrecognised op a b) := by
  unfold decodeWith
  split_ifs with hor hxor hadd hand
  · exact .inl ⟨hor, rfl⟩
  · exact .inr (.inl ⟨hxor, rfl⟩)
  · exact .inr (.inr (.inl ⟨hadd, rfl⟩))
  · exact .inr (.inr (.inr (.inl ⟨hand, rfl⟩)))
  · exact .inr (.inr (.inr (.inr ⟨by simp [recognisedWith, hor, hxor, hadd, hand], rfl⟩)))

theorem wfWith_decodeWith (p op a b : Word) : (decodeWith p op a b).wfWith p = true := by
  rcases decodeWith_cases p op a b with ⟨-, h⟩ | ⟨-, h⟩ | ⟨-, h⟩ | ⟨-, h⟩ | ⟨hrec, h⟩ <;> rw [h]
  case inr.inr.inr.inr => exact (wfWith_unrecognised_iff p op a b).2 hrec
  all_goals rfl

theorem encodeWith_decodeWith (p op a b : Word) : encodeWith p (decodeWith p op a b) = [op, a, b] := by
  rcases decodeWith_cases p op a b with ⟨rfl, h⟩ | ⟨rfl, h⟩ | ⟨rfl, h⟩ | ⟨rfl, h⟩ | ⟨-, h⟩ <;> rw [h] <;> rfl

/-! ### A program's words (R52) -/

/-- Every instruction is three words, so dropping `3 * n` words drops `n` instructions. -/
theorem drop_assembleWith (p : Word) (is : List Instr) (n : Nat) :
    (assembleWith p is).drop (3 * n) = assembleWith p (is.drop n) := by
  induction n generalizing is with
  | zero => rfl
  | succ n ih =>
    cases is with
    | nil => simp [assembleWith]
    | cons i is => exact ih is

/-! ### The assembler's text (R52) -/

theorem hexValue_hexDigit (w : Word) : hexValue (hexDigit w) = some w := by
  revert w; decide

theorem parseImm4_imm4Text (w : Word) (rest : List Char) : parseImm4 (imm4Text w ++ rest) = some (w, rest) := by
  simp [parseImm4, imm4Text, hexValue_hexDigit]

theorem parseOperands_operandsText (a b : Word) : parseOperands (operandsText a b) = some (a, b) := by
  have ha := parseImm4_imm4Text a (',' :: ' ' :: imm4Text b)
  have hb := parseImm4_imm4Text b []
  rw [List.append_nil] at hb
  simp [parseOperands, operandsText, ha, hb]

/-! ### The opcode table's numbers (R47) -/

theorem pack12_toNat (op a b : Word) : (pack12 op a b).toNat = 256 * op.toNat + 16 * a.toNat + b.toNat := by
  rw [pack12, BitVec.toNat_append, BitVec.toNat_append, ← Nat.shiftLeft_add_eq_or_of_lt a.isLt,
    ← Nat.shiftLeft_add_eq_or_of_lt b.isLt]
  omega

theorem tableWord_toNat {nbits : Nat} (h : 12 ≤ nbits) (v : BitVec 12) : tableWord nbits v.toNat = some v := by
  have hmod : v.toNat % 2 ^ nbits = v.toNat :=
    Nat.mod_eq_of_lt (v.isLt.trans_le (Nat.pow_le_pow_right Nat.two_pos h))
  simp [tableWord, hmod, v.isLt]

theorem tableWord_eq_none {nbits w : Nat} (h : 4096 ≤ w % 2 ^ nbits) : tableWord nbits w = none :=
  if_neg (Nat.not_lt.2 h)

theorem decodeTableWord_pack12 {nbits : Nat} (h : 12 ≤ nbits) (op a b : Word) :
    decodeTableWord nbits (pack12 op a b).toNat = some (decode op a b) := by
  obtain ⟨hop, ha, hb⟩ := unpack_pack12 op a b
  simp [decodeTableWord, tableWord_toNat h, hop, ha, hb]

/-! ### The statements on the encoding -/

/-- Settles O9, by the row of the opcode map the instruction stands in. -/
theorem decodeOfEncodeIsTheInstruction : Obligations.DecodeOfEncodeIsTheInstruction :=
  fun _ hp _ rest hi => decodeStreamWith_encodeWith hp hi rest

/-- Settles O10, by the row of the opcode map the first word selects. -/
theorem encodeOfDecodeIsTheWords : Obligations.EncodeOfDecodeIsTheWords :=
  fun p op a b => ⟨wfWith_decodeWith p op a b, encodeWith_decodeWith p op a b⟩

/-- Settles O11: after `3 * n` words stands the program from its instruction `n` on. -/
theorem assembledProgramDecodesInstructionByInstruction :
    Obligations.AssembledProgramDecodesInstructionByInstruction := by
  intro p hp is his n hn
  calc decodeStreamWith p ((assembleWith p is).drop (3 * n))
      = decodeStreamWith p (encodeWith p is[n] ++ assembleWith p (is.drop (n + 1))) := by
        rw [drop_assembleWith, List.drop_eq_getElem_cons hn]; rfl
    _ = .ok (is[n], assembleWith p (is.drop (n + 1))) :=
        decodeStreamWith_encodeWith hp (his _ (List.getElem_mem hn)) _
    _ = .ok (is[n], (assembleWith p is).drop (3 * n + 3)) := by rw [← drop_assembleWith]; rfl

/-- Settles O12: the mnemonic selects the parser's row, and the immediates read back. -/
theorem assemblerTextReadsBack : Obligations.AssemblerTextReadsBack := by
  intro p i hi
  cases i with
  | or a b => simp [Instr.chars, parseInstrWith, parseOperands_operandsText]
  | and a b => simp [Instr.chars, parseInstrWith, parseOperands_operandsText]
  | xor a b => simp [Instr.chars, parseInstrWith, parseOperands_operandsText]
  | add a b => simp [Instr.chars, parseInstrWith, parseOperands_operandsText]
  | unrecognised op a b =>
    have hrec : recognisedWith p op = false := (wfWith_unrecognised_iff p op a b).1 hi
    simp [Instr.chars, parseInstrWith, parseImm4_imm4Text, parseOperands_operandsText, hrec]

/-- Settles O13: a packed word is below 4096, so the table reads it back; from 4096 on it reads nothing. -/
theorem tableNumberingIsThePacking : Obligations.TableNumberingIsThePacking :=
  ⟨fun _ op a b h => decodeTableWord_pack12 h op a b, pack12_toNat,
    fun _ _ h => congrArg (Option.map _) (tableWord_eq_none h)⟩

/-- Settles O8, from the rows of the opcode map; `0x418` is the packing of 0x4, 0x1, 0x8. -/
theorem sourceWordsDecode : Obligations.SourceWordsDecode :=
  ⟨decodeWith_or _ _ _, decodeWith_add _ _ _, decodeWith_xor _ _ _, decode_opcAnd _ _,
    decodeTableWord_pack12 (by decide) 0x4#4 0x1#4 0x8#4⟩

end Sys2Proof

namespace Sys2Proof.Machine

/-! ### The statements on the execute cycle -/

theorem step_eq_exec_latched {s : State} (h : s.cycle = 7#3) :
    step s = mapNext State.advanceCycle (exec s.latched s) := by
  rw [(step_at_7 h).1, exec_eq, mapNext_next]

/-- The cycle counter wraps from 7 to 0 (R16). -/
theorem State.advanceCycle_at_7 {s : State} (h : s.cycle = 7#3) : s.advanceCycle = { s with cycle := 0#3 } := by
  simp [State.advanceCycle, State.setCycle, h]

/-- Settles O25: the decoder reads the latched instruction from the three latches. -/
theorem stepRunsTheDecodedInstruction : Obligations.StepRunsTheDecodedInstruction := by
  intro s i hc hdec
  have hlatched : s.latched = i := congrArg Prod.fst (Except.ok.inj hdec)
  exact ⟨hlatched ▸ step_eq_exec_latched hc, (step_at_7 hc).2⟩

/-- Settles O38: after the seven ticks of the fetch the machine stands at its execute cycle, and cycle 7 advances
to 0. -/
theorem anInstructionIsFetchThenExec : Obligations.AnInstructionIsFetchThenExec := by
  intro s i hinv hc hdec
  have hlatched : s.fetched.latched = i := by rw [← hdec, ← hinv.busIsWord]; rfl
  refine ⟨s.fetched, ticks_seven hc, rfl, hlatched, rfl, rfl, ?_⟩
  rw [ticks_add 7 1 (ticks_seven hc), ticks_succ_of_step 0 (step_at_7 rfl).1, hlatched, exec_eq,
    State.advanceCycle_at_7 rfl]
  rfl

/-- Settles O39: the eight ticks write `result` with what it held, and everything else by the fetch. -/
theorem unrecognisedInstructionKeepsAStaleCarry : Obligations.UnrecognisedInstructionKeepsAStaleCarry := by
  intro s hinv hc hrec
  rw [← hinv.busIsWord] at hrec ⊢
  rw [ticks_eight hc, resultAfter_of_unrecognised hrec, State.advanceCycle_at_7 rfl]
  exact ⟨_, rfl, rfl, rfl, rfl, rfl, rfl, rfl, rfl⟩

end Sys2Proof.Machine

/-! PROOFS. The execution unit's operations (R60 to R67): the four results as numbers and bit by bit, the identities
between them, and what each instruction's execute cycle writes. -/

namespace Sys2Proof.Machine

/-! ### OR, AND and XOR against the sum, of numbers of any size -/

/-- OR and AND share out the bits of a sum: a bit set in both operands counts once in each. -/
theorem nat_or_add_and (m n : Nat) : (m ||| n) + (m &&& n) = m + n := by
  induction m using Nat.strongRecOn generalizing n with
  | ind m ih =>
    by_cases hm : m = 0
    · simp [hm]
    · have hhalf := ih (m / 2) (by omega) (n / 2)
      rw [← Nat.or_div_two, ← Nat.and_div_two] at hhalf
      have hor := Nat.or_mod_two_eq_one (a := m) (b := n)
      have hand := Nat.and_mod_two_eq_one (a := m) (b := n)
      omega

/-- XOR is the sum without carries, and AND marks where the carries begin. -/
theorem nat_xor_add_two_mul_and (m n : Nat) : (m ^^^ n) + 2 * (m &&& n) = m + n := by
  induction m using Nat.strongRecOn generalizing n with
  | ind m ih =>
    by_cases hm : m = 0
    · simp [hm]
    · have hhalf := ih (m / 2) (by omega) (n / 2)
      rw [← Nat.xor_div_two, ← Nat.and_div_two] at hhalf
      have hxor := Nat.xor_mod_two_eq_one (a := m) (b := n)
      have hand := Nat.and_mod_two_eq_one (a := m) (b := n)
      omega

/-! ### The four results, as numbers and bit by bit (R61 to R64) -/

theorem packResult_false_toNat (v : Word) : (packResult false v).toNat = v.toNat := by
  simp [packResult_toNat]

theorem orResult_toNat (a b : Word) : (orResult a b).toNat = a.toNat ||| b.toNat :=
  (packResult_false_toNat _).trans (BitVec.toNat_or a b)

theorem andResult_toNat (a b : Word) : (andResult a b).toNat = a.toNat &&& b.toNat :=
  (packResult_false_toNat _).trans (BitVec.toNat_and a b)

theorem xorResult_toNat (a b : Word) : (xorResult a b).toNat = a.toNat ^^^ b.toNat :=
  (packResult_false_toNat _).trans (BitVec.toNat_xor a b)

/-- Below bit 4 a result's bits are its value's. -/
theorem getLsbD_packResult (c : Bool) (v : Word) {i : Nat} (hi : i < 4) :
    (packResult c v).getLsbD i = v.getLsbD i := by
  rw [packResult, BitVec.getLsbD_append, if_pos hi]

theorem valueOf_toNat (r : Result) : (valueOf r).toNat = r.toNat % 16 := by
  simp [valueOf]

theorem valueOf_addResult_toNat (a b : Word) : (valueOf (addResult a b)).toNat = (a.toNat + b.toNat) % 16 := by
  rw [valueOf_toNat, addResult_toNat]

theorem carryOf_addResult_iff (a b : Word) : carryOf (addResult a b) = true ↔ a.toNat + b.toNat > 15 := by
  rw [carryOf_eq_decide, addResult_toNat, decide_eq_true_iff]

/-! ### The identities of R67 -/

/-- The four operations commute, and an unrecognised opcode ignores its operands. -/
theorem aluWith_comm (p op a b : Word) : aluWith p op a b = aluWith p op b a := by
  simp only [aluWith, orResult, andResult, xorResult, addResult, BitVec.or_comm a, BitVec.and_comm a,
    BitVec.xor_comm a, BitVec.add_comm (zext5 a)]

theorem orResult_add_andResult (a b : Word) :
    (orResult a b).toNat + (andResult a b).toNat = (addResult a b).toNat := by
  rw [orResult_toNat, andResult_toNat, addResult_toNat, nat_or_add_and]

theorem xorResult_add_two_mul_andResult (a b : Word) :
    (xorResult a b).toNat + 2 * (andResult a b).toNat = (addResult a b).toNat := by
  rw [xorResult_toNat, andResult_toNat, addResult_toNat, nat_xor_add_two_mul_and]

/-- A sum that carries is at most 30, so what is left of it is at most 14. -/
theorem valueOf_addResult_of_carry {a b : Word} (h : a.toNat + b.toNat ≥ 16) :
    (valueOf (addResult a b)).toNat = a.toNat + b.toNat - 16 ∧ (valueOf (addResult a b)).toNat ≤ 14 := by
  have ha := a.isLt
  have hb := b.isLt
  rw [valueOf_addResult_toNat]
  omega

theorem orResult_toNat_le (a b : Word) : (orResult a b).toNat ≤ 15 :=
  (packResult_false_toNat _).trans_le (Nat.le_of_lt_succ (a ||| b).isLt)

theorem andResult_toNat_le_min (a b : Word) : (andResult a b).toNat ≤ min a.toNat b.toNat :=
  (andResult_toNat a b).trans_le (Nat.le_min.2 ⟨Nat.and_le_left, Nat.and_le_right⟩)

theorem max_le_orResult_toNat (a b : Word) : max a.toNat b.toNat ≤ (orResult a b).toNat :=
  (Nat.max_le.2 ⟨Nat.left_le_or, Nat.right_le_or⟩).trans_eq (orResult_toNat a b).symm

/-- Settles O7: each opcode selects its result, and the results satisfy the identities. -/
theorem aluIdentities : Obligations.AluIdentities := by
  intro p hp
  refine ⟨fun op a b => ⟨aluWith_comm p op a b, fun hor hand hxor hadd =>
    aluWith_unrecognised ((recognisedWith_eq_false_iff p op).2 ⟨hor, hand, hxor, hadd⟩) a b⟩, fun a b => ?_⟩
  rw [aluWith_or, aluWith_and hp, aluWith_xor hp, aluWith_add hp]
  exact ⟨orResult_add_andResult a b, xorResult_add_two_mul_andResult a b, carryOf_addResult_iff a b,
    valueOf_addResult_of_carry, orResult_toNat_le a b, andResult_toNat_le_min a b, max_le_orResult_toNat a b⟩

/-! ### What each instruction's execute cycle writes (R61 to R65) -/

/-- Writing `result` writes nothing else. -/
theorem onlyResultMayChange_setResult (s : State) (r : Result) : OnlyResultMayChange s (s.setResult r) :=
  ⟨rfl, fun _ => rfl, rfl, rfl, rfl, rfl, rfl, rfl⟩

/-- What the three bitwise operations share: `result` gets the word's bits, bit 4 zero, and nothing else is written. -/
theorem setResult_packResult_false_bits (s : State) (v : Word) :
    (∀ i, i < 4 → (s.setResult (packResult false v)).result.getLsbD i = v.getLsbD i) ∧
    (s.setResult (packResult false v)).result.getLsbD 4 = false ∧
    OnlyResultMayChange s (s.setResult (packResult false v)) :=
  ⟨fun _ hi => getLsbD_packResult false v hi, carryOf_packResult false v, onlyResultMayChange_setResult s _⟩

/-- Settles O1, from the bits of `a ||| b`. -/
theorem orWritesBitwiseOrAndClearsCarry : Obligations.OrWritesBitwiseOrAndClearsCarry := by
  intro p a b _
  rw [aluWith_or]
  refine ⟨decodeWith_or p a b, rfl, fun s => ⟨_, exec_or a b s, rfl, ?_⟩⟩
  simp only [← BitVec.getLsbD_or]
  exact setResult_packResult_false_bits s (a ||| b)

/-- Settles O2, from the bits of `a &&& b`; R6's constraint keeps the opcode from selecting another row. -/
theorem andWritesBitwiseAndAndClearsCarry : Obligations.AndWritesBitwiseAndAndClearsCarry := by
  intro p a b hp
  rw [aluWith_and hp]
  refine ⟨decodeWith_and hp a b, rfl, fun s => ⟨_, exec_and a b s, rfl, ?_⟩⟩
  simp only [← BitVec.getLsbD_and]
  exact setResult_packResult_false_bits s (a &&& b)

/-- Settles O3, from the bits of `a ^^^ b`. -/
theorem xorWritesBitwiseXorAndClearsCarry : Obligations.XorWritesBitwiseXorAndClearsCarry := by
  intro p a b hp
  rw [aluWith_xor hp]
  refine ⟨decodeWith_xor p a b, rfl, fun s => ⟨_, exec_xor a b s, rfl, ?_⟩⟩
  simp only [← BitVec.getLsbD_xor]
  exact setResult_packResult_false_bits s (a ^^^ b)

/-- Settles O4: the sum is exact in 5 bits, and its value and carry are read from it. -/
theorem addWritesExactSumWithCarryOut : Obligations.AddWritesExactSumWithCarryOut := by
  intro p a b hp
  rw [aluWith_add hp]
  exact ⟨decodeWith_add p a b, rfl, fun s => ⟨_, exec_add a b s, rfl, addResult_toNat a b,
    valueOf_addResult_toNat a b, carryOf_addResult_iff a b, onlyResultMayChange_setResult s _⟩⟩

/-- At cycle 7 with an unrecognised opcode latched, `exec` answers the state it was given, and the tick advances the
cycle (R65, R82, R83). -/
theorem step_at_7_unrecognised {s : State} (hc : s.cycle = 7#3) (hop : recognised s.opcode = false) :
    step s = .next { s with cycle := 0#3 } := by
  have hlatched : s.latched = .unrecognised s.opcode s.operandA s.operandB := decodeWith_unrecognised hop _ _
  rw [step_eq_exec_latched hc, hlatched, exec_unrecognised, mapNext_next, State.advanceCycle_at_7 hc]

/-- Settles O5: an opcode that is none of the four is not recognised, by the decoder, the ALU and the tick alike. -/
theorem unrecognisedOpcodeHoldsEverything : Obligations.UnrecognisedOpcodeHoldsEverything := by
  refine ⟨exec_unrecognised, fun p op a b hor hand hxor hadd => ?_, fun s hc hor hand hxor hadd => ?_⟩
  · have hrec := (recognisedWith_eq_false_iff p op).2 ⟨hor, hand, hxor, hadd⟩
    exact ⟨decodeWith_unrecognised hrec a b, (aluWith_valid p op a b).trans hrec⟩
  · have hrec := (recognisedWith_eq_false_iff _ _).2 ⟨hor, hand, hxor, hadd⟩
    exact ⟨step_at_7_unrecognised hc hrec, (step_at_7 hc).2⟩

end Sys2Proof.Machine

/-! PROOFS. The sequencer (R75 to R92): the `Step` of each cycle, how far a run of any length moves the cycle and the
cursor, what an instruction's eight ticks leave and report, and the load of one instruction word. -/

namespace Sys2Proof.Machine

/-! ### `Step`, cycle by cycle (R76 to R82) -/

theorem engineStep_at_idle {s : State} (h : s.cycle = 0#3 ∨ s.cycle = 2#3 ∨ s.cycle = 5#3 ∨ s.cycle = 6#3) :
    engineStep s = (.next s, false) := by
  rcases h with h | h | h | h <;> simp [engineStep, h]

theorem engineStep_at_1 {s : State} (h : s.cycle = 1#3) : (engineStep s).1 = .next (fetchOpcode s).1 := by
  simp [engineStep, h]

theorem engineStep_at_3 {s : State} (h : s.cycle = 3#3) : (engineStep s).1 = .next (fetchOperandA s).1 := by
  simp [engineStep, h]

theorem engineStep_at_4 {s : State} (h : s.cycle = 4#3) : (engineStep s).1 = .next (fetchOperandB s).1 := by
  simp [engineStep, h]

/-- The execute cycle writes `result` with what R90 says of the latched words. -/
theorem engineStep_at_7 {s : State} (h : s.cycle = 7#3) :
    engineStep s = (.next (s.setResult (resultAfter s.result s.opcode s.operandA s.operandB)), false) := by
  have hexec : engineStep s = (exec s.latched s, false) := by simp [engineStep, h]
  rw [hexec, exec_eq, State.latched, newResult_decode]

theorem State.nextWraps_iff (s : State) : s.nextWraps = true ↔ s.cursor.val = s.mem.progLen - 1 := beq_iff_eq

/-- The cycle advance writes the cycle and nothing else. -/
theorem State.advanceCycle_eq {s : State} {c : BitVec 3} (h : s.cycle + 1#3 = c) :
    s.advanceCycle = { s with cycle := c } := by
  subst h
  rfl

theorem step_eq_mapNext (s : State) : step s = mapNext State.advanceCycle (engineStep s).1 := rfl

/-- D4: a refill reports what its call of `next()` reports. -/
theorem wrapped_of_refillCycle {s : State} (h : RefillCycle s.cycle) : wrapped s = s.nextWraps := by
  rcases h with h1 | h3 | h4
  · exact (step_at_1 h1).2
  · exact (step_at_3 h3).2
  · exact (step_at_4 h4).2

/-- A tick whose `Step` fetches a word into `f`: the `Step`, the cycle advance after it, and the signal. -/
theorem refill_tick {s f : State} {c : BitVec 3} (hc : RefillCycle s.cycle) (hstep : (engineStep s).1 = .next f)
    (hcycle : f.cycle + 1#3 = c) :
    (engineStep s).1 = .next f ∧ step s = .next { f with cycle := c } ∧
    (wrapped s = true ↔ s.cursor.val = s.mem.progLen - 1) :=
  ⟨hstep, State.advanceCycle_eq hcycle ▸ step_of_engineStep hstep, wrapped_of_refillCycle hc ▸ s.nextWraps_iff⟩

/-- `Step` never changes the cycle (R75): the advance is the ClockDriver's. -/
theorem engineStep_cycle {s u : State} (h : (engineStep s).1 = .next u) : u.cycle = s.cycle :=
  add_right_cancel (step_writes (step_of_engineStep h)).cycle

/-- `Step` moves the cursor as its tick does. -/
theorem engineStep_cursor_of_refillCycle {s u : State} (hc : RefillCycle s.cycle)
    (h : (engineStep s).1 = .next u) : u.cursor.val = (s.cursor.val + 1) % s.mem.progLen :=
  (step_writes (step_of_engineStep h)).cursor.trans (if_pos hc)

/-- The ALU is a function of held registers: executing the same words again leaves what the first time left. -/
theorem resultAfter_idem (old : Result) (op a b : Word) :
    resultAfter (resultAfter old op a b) op a b = resultAfter old op a b := by
  unfold resultAfter
  split <;> rfl

/-- Writing `result` with what R90 says is writing it if the ALU says valid, and nothing otherwise. -/
theorem setResult_resultAfter (s : State) (op a b : Word) :
    s.setResult (resultAfter s.result op a b) =
      if (alu op a b).1 then { s with result := (alu op a b).2 } else s := by
  unfold resultAfter
  split <;> rfl

/-! ### Runs (R83, R85, R91) -/

/-- A tick answers a next state at each of the cycles (R91). -/
theorem exists_step (s : State) : ∃ t, step s = .next t := by
  by_cases hrefill : RefillCycle s.cycle
  · rcases hrefill with h1 | h3 | h4
    · exact ⟨_, (step_at_1 h1).1⟩
    · exact ⟨_, (step_at_3 h3).1⟩
    · exact ⟨_, (step_at_4 h4).1⟩
  · rcases (not_refillCycle_iff _).1 hrefill with hidle | h7
    · exact ⟨_, (step_at_idle hidle).1⟩
    · exact ⟨_, (step_at_7 h7).1⟩

/-- A run's last tick. -/
theorem ticks_succ_of_ticks {n : Nat} {s u t : State} (h : ticks n s = .next u) (hstep : step u = .next t) :
    ticks (n + 1) s = .next t :=
  (ticks_add n 1 h).trans (ticks_succ_of_step 0 hstep)

theorem exists_ticks (n : Nat) (s : State) : ∃ t, ticks n s = .next t := by
  induction n generalizing s with
  | zero => exact ⟨s, rfl⟩
  | succ n ih =>
    obtain ⟨u, hstep⟩ := exists_step s
    rw [ticks_succ_of_step n hstep]
    exact ih u

theorem inv_ticks {n : Nat} {s t : State} (hinv : Inv s) (h : ticks n s = .next t) : Inv t := by
  induction n generalizing s with
  | zero => exact Host.Outcome.next.inj h ▸ hinv
  | succ n ih =>
    obtain ⟨u, hstep, hrun⟩ := ticks_succ_cases h
    exact ih (inv_step hinv hstep) hrun

/-- Counting on from the next cycle. -/
theorem cycle_add_one_add (c : BitVec 3) (n : Nat) : c + 1#3 + BitVec.ofNat 3 n = c + BitVec.ofNat 3 (n + 1) := by
  rw [BitVec.ofNat_add, BitVec.add_assoc, BitVec.add_comm 1#3]

theorem ticks_cycle {n : Nat} {s t : State} (h : ticks n s = .next t) : t.cycle = s.cycle + BitVec.ofNat 3 n := by
  induction n generalizing s with
  | zero => simp [Host.Outcome.next.inj h]
  | succ n ih =>
    obtain ⟨u, hstep, hrun⟩ := ticks_succ_cases h
    rw [ih hrun, (step_writes hstep).cycle, cycle_add_one_add]

/-- How many of the `n` ticks from cycle `c` on call `next()` (R85). -/
def refills : Nat → BitVec 3 → Nat
  | 0, _ => 0
  | n + 1, c => (if RefillCycle c then 1 else 0) + refills n (c + 1#3)

theorem refills_add (m n : Nat) (c : BitVec 3) :
    refills (m + n) c = refills m c + refills n (c + BitVec.ofNat 3 m) := by
  induction m generalizing c with
  | zero => simp [refills]
  | succ m ih => rw [Nat.succ_add, refills, refills, ih, cycle_add_one_add, Nat.add_assoc]

/-- Any eight ticks pass through every cycle once, so three of them refill. -/
theorem refills_eight (c : BitVec 3) : refills 8 c = 3 := by
  revert c; decide

theorem refills_eight_mul (n : Nat) (c : BitVec 3) : refills (8 * n) c = 3 * n := by
  induction n with
  | zero => rfl
  | succ n ih => rw [Nat.mul_succ, refills_add, ih, refills_eight, Nat.mul_succ]

/-- One tick moves the cursor by the refills of one tick. -/
theorem step_cursor {s t : State} (h : step s = .next t) :
    t.cursor.val = (s.cursor.val + if RefillCycle s.cycle then 1 else 0) % s.mem.progLen := by
  rw [(step_writes h).cursor]
  split
  · rfl
  · exact (Nat.mod_eq_of_lt s.cursor.isLt).symm

/-- A run moves the cursor by the number of its refills. -/
theorem ticks_cursor {n : Nat} {s t : State} (h : ticks n s = .next t) :
    t.cursor.val = (s.cursor.val + refills n s.cycle) % s.mem.progLen := by
  induction n generalizing s with
  | zero =>
    rw [← Host.Outcome.next.inj h]
    exact (Nat.mod_eq_of_lt s.cursor.isLt).symm
  | succ n ih =>
    obtain ⟨u, hstep, hrun⟩ := ticks_succ_cases h
    rw [ih hrun, step_cursor hstep, (step_writes hstep).mem, (step_writes hstep).cycle, Nat.mod_add_mod, refills,
      Nat.add_assoc]

/-- With the invariant, a run leaves on the bus the word its refills have moved the cursor to. -/
theorem ticks_bus {n : Nat} {s t : State} (hinv : Inv s) (h : ticks n s = .next t) :
    t.bus = wordFrom s.mem s.cursor (refills n s.cycle) := by
  rw [(inv_ticks hinv h).busIsWord, ticks_cursor h, ticks_mem h, wordFrom]

/-! ### The `wrapped` outputs of a run (R87) -/

theorem wrapped_eq_decide (s : State) :
    wrapped s = decide (RefillCycle s.cycle ∧ s.cursor.val = s.mem.progLen - 1) := by
  by_cases hc : RefillCycle s.cycle
  · rw [Bool.eq_iff_iff, wrapped_of_refillCycle hc, State.nextWraps_iff, decide_eq_true_iff, and_iff_right hc]
  · rw [wrapped_of_not_refillCycle hc, decide_eq_false (fun h => hc h.1)]

/-- The `wrapped` output of tick `k + 1` of a run from `s`: that of the state `k` ticks on. -/
def wrappedAfter (s : State) (k : Nat) : Bool :=
  decide (RefillCycle (s.cycle + BitVec.ofNat 3 k) ∧
    (s.cursor.val + refills k s.cycle) % s.mem.progLen = s.mem.progLen - 1)

theorem wrapped_of_ticks {k : Nat} {s t : State} (h : ticks k s = .next t) : wrapped t = wrappedAfter s k := by
  rw [wrapped_eq_decide, ticks_cycle h, ticks_cursor h, ticks_mem h, wrappedAfter]

theorem trace_wrapped (n : Nat) (s : State) : (trace n s).map Prod.snd = (List.range n).map (wrappedAfter s) := by
  induction n generalizing s with
  | zero => rfl
  | succ n ih =>
    obtain ⟨t, hstep⟩ := exists_step s
    have hshift : ∀ k, wrappedAfter t k = wrappedAfter s (k + 1) := fun k => by
      obtain ⟨u, hu⟩ := exists_ticks k t
      rw [← wrapped_of_ticks hu, wrapped_of_ticks ((ticks_succ_of_step k hstep).trans hu)]
    rw [trace_succ_of_step n hstep, List.map_cons, ih, List.range_succ_eq_map, List.map_cons, List.map_map,
      ← wrapped_of_ticks (ticks_zero s)]
    exact congrArg _ (List.map_congr_left fun k _ => hshift k)

/-! ### The statements on one tick -/

/-- Settles O6: `exec` answers the state with `result` written. -/
theorem everyInstructionCompletesAndWritesOnlyResult :
    Obligations.EveryInstructionCompletesAndWritesOnlyResult :=
  fun i s => ⟨_, exec_eq i s, onlyResultMayChange_setResult s _⟩

/-- Settles O20: no idle cycle has an action. -/
theorem idleCyclesChangeOnlyTheCycle : Obligations.IdleCyclesChangeOnlyTheCycle :=
  fun _ h => ⟨engineStep_at_idle h, step_at_idle h⟩

/-- Settles O21: the latch takes the bus before the refill writes it. -/
theorem cycleOneLatchesOpcodeThenRefills : Obligations.CycleOneLatchesOpcodeThenRefills := fun s h =>
  refill_tick (.inl h) (engineStep_at_1 h) (by simp [h])

/-- Settles O22, as at cycle 1. -/
theorem cycleThreeLatchesOperandAThenRefills : Obligations.CycleThreeLatchesOperandAThenRefills := fun s h =>
  refill_tick (.inr (.inl h)) (engineStep_at_3 h) (by simp [h])

/-- Settles O23, as at cycle 1. -/
theorem cycleFourLatchesOperandBThenRefills : Obligations.CycleFourLatchesOperandBThenRefills := fun s h =>
  refill_tick (.inr (.inr h)) (engineStep_at_4 h) (by simp [h])

/-- Settles O24: the decoder and the ALU agree on the latched words, recognised or not. -/
theorem cycleSevenWritesTheAluAnswer : Obligations.CycleSevenWritesTheAluAnswer := by
  intro s h
  refine ⟨?_, ?_, (step_at_7 h).2⟩
  · rw [engineStep_at_7 h, setResult_resultAfter, apply_ite Host.Outcome.next]
  · rw [step_eq_mapNext, engineStep_at_7 h, mapNext_next]
    exact congrArg Host.Outcome.next (State.advanceCycle_at_7 h)

/-- Settles O26: the first part is the definition of a tick, the last an induction on the ticks. -/
theorem tickIsStepThenCycleAdvance : Obligations.TickIsStepThenCycleAdvance :=
  ⟨fun _ => ⟨rfl, rfl⟩, fun _ _ => engineStep_cycle, fun _ _ _ => ticks_cycle⟩

/-- Settles O27: at cycle 7 the first `Step` holds the latches, so the second computes the same answer. -/
theorem stepIsIdempotentWhereNoRefillHappens : Obligations.StepIsIdempotentWhereNoRefillHappens := by
  refine ⟨fun s h => congrArg Prod.fst (engineStep_at_idle h), fun s u h7 hu => ?_,
    fun s u => engineStep_cursor_of_refillCycle⟩
  have hu7 : u.cycle = 7#3 := (engineStep_cycle hu).trans h7
  rw [engineStep_at_7 h7] at hu
  obtain rfl := Host.Outcome.next.inj hu
  rw [engineStep_at_7 hu7]
  exact congrArg (fun r => Host.Outcome.next (s.setResult r)) (resultAfter_idem _ _ _ _)

/-! ### The statements on runs -/

/-- Settles O28, by the cases of the cycle, then by induction on the ticks. -/
theorem everyStateHasASuccessor : Obligations.EveryStateHasASuccessor := ⟨exists_step, exists_ticks⟩

/-- Settles O35: eight ticks hold three refills. -/
theorem eightTicksAdvanceTheCursorByThree : Obligations.EightTicksAdvanceTheCursorByThree :=
  ⟨fun _ _ h => (step_writes h).cursor, fun s _ h => refills_eight s.cycle ▸ ticks_cursor h⟩

/-- The ticks of cycles 1 to 4: each latch keeps what its own tick saw on the bus, and `result` holds. -/
theorem latches_after_fetch {s s2 s3 s4 t : State} (hc : s.cycle = 1#3) (hs2 : step s = .next s2)
    (hs3 : step s2 = .next s3) (hs4 : step s3 = .next s4) (ht : step s4 = .next t) :
    t.opcode = s.bus ∧ t.operandA = s3.bus ∧ t.operandB = s4.bus ∧ t.result = s.result := by
  have w1 := step_writes hs2
  have w2 := step_writes hs3
  have w3 := step_writes hs4
  have w4 := step_writes ht
  have c2 : s2.cycle = 2#3 := by simp [w1.cycle, hc]
  have c3 : s3.cycle = 3#3 := by simp [w2.cycle, c2]
  have c4 : s4.cycle = 4#3 := by simp [w3.cycle, c3]
  refine ⟨?_, ?_, ?_, ?_⟩
  · simp [w4.opcode, c4, w3.opcode, c3, w2.opcode, c2, w1.opcode, hc]
  · simp [w4.operandA, c4, w3.operandA, c3]
  · simp [w4.operandB, c4]
  · simp [w4.result, c4, w3.result, c3, w2.result, c2, w1.result, hc]

/-- Settles O36: with the invariant the bus shows the word under the cursor, which the run's refills have moved. -/
theorem fourTicksLatchThreeBusWords : Obligations.FourTicksLatchThreeBusWords := by
  intro s hc
  obtain ⟨s2, hs2⟩ := exists_step s
  obtain ⟨s3, hs3⟩ := exists_step s2
  obtain ⟨s4, hs4⟩ := exists_step s3
  obtain ⟨t, ht⟩ := exists_step s4
  have run2 : ticks 2 s = .next s3 := (ticks_succ_of_step 1 hs2).trans (ticks_succ_of_step 0 hs3)
  have run3 : ticks 3 s = .next s4 := ticks_succ_of_ticks run2 hs4
  have run4 : ticks 4 s = .next t := ticks_succ_of_ticks run3 ht
  obtain ⟨hopcode, hopndA, hopndB, hresult⟩ := latches_after_fetch hc hs2 hs3 hs4 ht
  have hcycle : ∀ {n u}, ticks n s = .next u → u.cycle = 1#3 + BitVec.ofNat 3 n := fun h => hc ▸ ticks_cycle h
  refine ⟨s3, s4, t, run2, hcycle run2, run3, hcycle run3, run4, hopcode, hopndA, hopndB, hcycle run4, hresult,
    ticks_mem run4, fun hinv => ?_⟩
  have hbus : ∀ {n u}, ticks n s = .next u → u.bus = wordFrom s.mem s.cursor (refills n 1#3) :=
    fun h => hc ▸ ticks_bus hinv h
  exact ⟨hopcode.trans hinv.busIsWord, hopndA.trans (hbus run2), hopndB.trans (hbus run3),
    (ticks_cursor run4).trans (hc ▸ rfl), hbus run4⟩

/-- Settles O37: the seven ticks of the fetch and the execute cycle give the state; the refills counted along the run
give the `wrapped` outputs and where instruction `n` begins. -/
theorem eightTicksRunOneInstruction : Obligations.EightTicksRunOneInstruction := by
  refine ⟨fun s hinv hc => ⟨?_, ?_⟩, fun m n => ?_⟩
  · rw [runInstruction, ticks_eight hc, State.advanceCycle_at_7 rfl, ← hinv.busIsWord]
    rfl
  · rw [trace_wrapped]
    simp [List.range_succ, wrappedAfter, refills, RefillCycle, hc, Nat.mod_eq_of_lt s.cursor.isLt]
  · obtain ⟨t, ht⟩ := exists_ticks (8 * n) (State.resetWith m)
    have hcycle := ticks_cycle ht
    have hcursor := ticks_cursor ht
    have hbus := ticks_bus (inv_resetWith m) ht
    simp only [refills_eight_mul, State.resetWith_cursor, State.resetWith_mem, wordFrom, Nat.zero_add] at hcursor hbus
    exact ⟨t, ht, by simp [hcycle, BitVec.ofNat_mul], hcursor, hbus⟩

/-! ### The load of one instruction word (log entry 6) -/

theorem State.withFetchWord_of_tableWord {nbits w : Nat} {v : BitVec 12} (h : tableWord nbits w = some v)
    (s : State) : s.withFetchWord nbits w = s.loadAtExecute (unpackOp v) (unpackA v) (unpackB v) := by
  simp [State.withFetchWord, h]

theorem State.withFetchWord_pack12 {nbits : Nat} (h : 12 ≤ nbits) (s : State) (op a b : Word) :
    s.withFetchWord nbits (pack12 op a b).toNat = s.loadAtExecute op a b := by
  obtain ⟨hop, ha, hb⟩ := unpack_pack12 op a b
  rw [State.withFetchWord_of_tableWord (tableWord_toNat h _), hop, ha, hb]

/-- Settles O46: seven ticks fetch the program's three words and come round to its first. -/
theorem loadedWordIsSevenTicksAfterReset : Obligations.LoadedWordIsSevenTicksAfterReset := by
  intro nbits op a b h
  rw [State.withFetchWord_pack12 h, ticks_seven rfl]
  refine congrArg Host.Outcome.next ?_
  apply State.eq_of_fields <;> simp [State.fetched, wordFrom, Memory.first, Memory.read_ofWords, State.reset]

/-- Settles O47: the load latches the words `i` is decoded from, at the execute cycle. -/
theorem loadedWordRunsNext : Obligations.LoadedWordRunsNext := by
  intro s nbits w i hdec
  obtain ⟨v, hv, hi⟩ := Option.map_eq_some_iff.1 hdec
  rw [State.withFetchWord_of_tableWord hv, step_eq_exec_latched rfl]
  have hlatched : (s.loadAtExecute (unpackOp v) (unpackA v) (unpackB v)).latched = i := hi
  rw [hlatched, exec_eq, mapNext_next, mapNext_next, State.advanceCycle_at_7 rfl]

end Sys2Proof.Machine

/-! PROOFS. The program source (R95 to R101): what one call of `next()` gives, which word call number `j` returns,
what construction keeps, and the program of one word. -/

namespace Sys2Proof.Machine

/-! ### Calls of `next()` (R97 to R99) -/

/-- R97's two forms of `wrapped`: the cursor stands on the last word exactly when its advance is to index 0. -/
theorem State.nextWraps_iff_advance_eq_zero (s : State) :
    s.nextWraps = true ↔ (s.cursor.val + 1) % s.mem.progLen = 0 := by
  have hadv : (s.cursor.val + 1) % s.mem.progLen = _ := s.advanceCursor_val
  rw [s.nextWraps_iff, hadv]
  split
  · next hlast => exact iff_of_true hlast rfl
  · next hlast => exact iff_of_false hlast (Nat.succ_ne_zero _)

@[simp] theorem State.setCursor_cursor_self (s : State) : s.setCursor s.cursor.val = s := by
  rw [State.setCursor, Memory.index_of_fin]

/-- The second write of the cursor stands; counting on from a cursor is counting on from the number written there. -/
theorem State.setCursor_count_on (s : State) (m k : Nat) :
    (s.setCursor m).setCursor ((s.setCursor m).cursor.val + k) = s.setCursor (m + k) :=
  congrArg (fun c => { s with cursor := c }) (s.mem.index_mod_add m k)

/-- The calls of `next()` before call number `j + 1` move the cursor `j` words on and do nothing else. -/
theorem nthNext_eq (j : Nat) (s : State) : nthNext j s = (s.setCursor (s.cursor.val + j)).next := by
  induction j generalizing s with
  | zero => rw [Nat.add_zero, State.setCursor_cursor_self, nthNext]
  | succ j ih =>
    rw [nthNext, s.next_spec.1, ih, State.setCursor_count_on, Nat.add_assoc, Nat.add_comm 1 j]

/-- What `next()` gives at the index `n mod PROG_LEN`. -/
theorem next_setCursor (s : State) (n : Nat) :
    (s.setCursor n).next.2.1 = s.mem.read ((n + 1) % s.mem.progLen) ∧
    ((s.setCursor n).next.2.2 = true ↔ (n + 1) % s.mem.progLen = 0) := by
  obtain ⟨-, hword, hwraps⟩ := (s.setCursor n).next_spec
  rw [hword, hwraps, State.nextWraps_iff_advance_eq_zero, State.setCursor_cursor, State.setCursor_mem, Nat.mod_add_mod]
  exact ⟨rfl, Iff.rfl⟩

/-- Settles O14: the advance by comparison, the advance by remainder, and both forms of `wrapped`. -/
theorem nextAdvancesThenReads : Obligations.NextAdvancesThenReads := fun s =>
  ⟨s.mem.index (s.cursor.val + 1), s.advanceCursor_val, rfl, rfl, s.nextWraps_iff_advance_eq_zero⟩

/-- Settles O15: the `j` calls before it leave call number `j + 1` a cursor of `j mod PROG_LEN`. -/
theorem callNumberJOfNext : Obligations.CallNumberJOfNext := by
  intro s h0 j
  rw [nthNext_eq, h0, Nat.zero_add]
  exact next_setCursor s j

/-! ### Construction (R100) -/

theorem mask4_toNat (n : Nat) : (mask4 n).toNat = n % 16 := by
  simp [mask4]

/-- Construction keeps the low 4 bits of each element in its place. -/
theorem Memory.read_construct {xs : List Nat} {m : Memory} (h : Memory.construct xs = some m) {i : Nat}
    (hi : i < xs.length) : m.read i = mask4 xs[i] := by
  cases xs with
  | nil => simp at hi
  | cons x xs =>
    obtain rfl := Option.some.inj h
    rw [Memory.read_ofWords, ← List.map_cons, List.getD_eq_getElem _ _ (by simpa using hi), List.getElem_map]

/-- Settles O16: construction of a non-empty list is the memory of its masked elements. -/
theorem constructionRejectsEmptyAndKeepsLowBits : Obligations.ConstructionRejectsEmptyAndKeepsLowBits := by
  refine ⟨rfl, fun x xs => ⟨_, rfl, Memory.wf_ofWords _ _, ?_, fun i hi => ?_, rfl⟩⟩
  · rw [Memory.progLen_ofWords, List.length_map, List.length_cons]
  · rw [Memory.read_construct rfl hi, mask4_toNat]

/-! ### The program of one word (R101) -/

theorem cursor_eq_zero_of_one_word {s : State} (h : s.mem.progLen = 1) : s.cursor.val = 0 :=
  Nat.lt_one_iff.1 (h ▸ s.cursor.isLt)

theorem bus_of_one_word {s : State} (hinv : Inv s) (h : s.mem.progLen = 1) : s.bus = s.mem.read 0 := by
  rw [hinv.busIsWord, cursor_eq_zero_of_one_word h]

/-- With the cursor always on the last word, each refill reports a wraparound. -/
theorem wrapped_iff_of_one_word {s : State} (h : s.mem.progLen = 1) : wrapped s = true ↔ RefillCycle s.cycle := by
  rw [wrapped_eq_decide, decide_eq_true_iff, cursor_eq_zero_of_one_word h, h]
  exact and_iff_left rfl

/-- The last tick of a run. -/
theorem ticks_succ_last {n : Nat} {s t : State} (h : ticks (n + 1) s = .next t) :
    ∃ u, ticks n s = .next u ∧ step u = .next t := by
  obtain ⟨u, hu⟩ := exists_ticks n s
  obtain ⟨v, hv⟩ := exists_step u
  exact ⟨u, hu, hv.trans ((ticks_succ_of_ticks hu hv).symm.trans h)⟩

/-- A latch that takes the bus at cycle `c` and holds at every other holds, after a run that passes through `c` and
sees the word `w` on the bus throughout, that word. -/
theorem latch_eq_of_bus_steady {latch : State → Word} {c : BitVec 3} {w : Word} {s : State}
    (hlatch : ∀ {u v : State}, step u = .next v → latch v = if u.cycle = c then u.bus else latch u)
    (hbus : ∀ {k : Nat} {u : State}, ticks k s = .next u → u.bus = w) {n : Nat} {t : State}
    (h : ticks n s = .next t) (hc : ∃ k < n, s.cycle + BitVec.ofNat 3 k = c) : latch t = w := by
  induction n generalizing t with
  | zero =>
    obtain ⟨k, hk, -⟩ := hc
    exact absurd hk (Nat.not_lt_zero k)
  | succ n ih =>
    obtain ⟨u, hu, hstep⟩ := ticks_succ_last h
    rw [hlatch hstep]
    split
    · exact hbus hu
    · next hne =>
      obtain ⟨k, hk, hkc⟩ := hc
      have hkn : k ≠ n := fun he => hne (by rw [ticks_cycle hu, ← he, hkc])
      exact ih hu ⟨k, by omega, hkc⟩

/-- Eight ticks pass through every cycle. -/
theorem exists_lt_cycle_eq {n : Nat} (hn : 8 ≤ n) (c d : BitVec 3) : ∃ k < n, c + BitVec.ofNat 3 k = d :=
  ⟨(d - c).toNat, (d - c).isLt.trans_le hn, by rw [BitVec.ofNat_toNat, BitVec.setWidth_eq, add_sub_cancel]⟩

/-- Settles O45: the cursor has index 0 alone to stand on, so the bus never changes, and eight ticks pass through the
cycle of each latch. -/
theorem oneWordProgramNeverMoves : Obligations.OneWordProgramNeverMoves := by
  intro s hinv h1
  have hlen : ∀ {k u}, ticks k s = .next u → u.mem.progLen = 1 := fun hu => (ticks_mem hu).symm ▸ h1
  have hbus : ∀ {k u}, ticks k s = .next u → u.bus = s.mem.read 0 := fun hu =>
    ticks_mem hu ▸ bus_of_one_word (inv_ticks hinv hu) (hlen hu)
  refine ⟨fun n => ?_, fun n hn => ?_⟩ <;> obtain ⟨t, ht⟩ := exists_ticks n s
  · exact ⟨t, ht, cursor_eq_zero_of_one_word (hlen ht), hbus ht, wrapped_iff_of_one_word (hlen ht)⟩
  · exact ⟨t, ht, latch_eq_of_bus_steady (fun h => (step_writes h).opcode) hbus ht (exists_lt_cycle_eq hn _ _),
      latch_eq_of_bus_steady (fun h => (step_writes h).operandA) hbus ht (exists_lt_cycle_eq hn _ _),
      latch_eq_of_bus_steady (fun h => (step_writes h).operandB) hbus ht (exists_lt_cycle_eq hn _ _)⟩

end Sys2Proof.Machine

/-! PROOFS. Reset (R130, R131), and what stands still between the ticks that write it (R134 to R137). -/

namespace Sys2Proof.Machine

/-! ### What a run holds, and what its last tick latches -/

/-- What a tick changes at the cycles in `writes` only is unchanged by a run that passes through none of them. -/
theorem ticks_hold {α : Type} {value : State → α} {writes : BitVec 3 → Prop}
    (hhold : ∀ {u v : State}, step u = .next v → ¬ writes u.cycle → value v = value u) {n : Nat} {s t : State}
    (h : ticks n s = .next t) (hno : ∀ k < n, ¬ writes (s.cycle + BitVec.ofNat 3 k)) : value t = value s := by
  induction n generalizing t with
  | zero => rw [Host.Outcome.next.inj h]
  | succ n ih =>
    obtain ⟨u, hu, hstep⟩ := ticks_succ_last h
    have hcycle : ¬ writes u.cycle := ticks_cycle hu ▸ hno n (Nat.lt_succ_self n)
    exact (hhold hstep hcycle).trans (ih hu fun k hk => hno k (Nat.lt_succ_of_lt hk))

/-- Without a refill the bus and the cursor stand still. -/
theorem ticks_bus_cursor_of_no_refill {n : Nat} {s t : State} (h : ticks n s = .next t)
    (hno : ∀ k < n, ¬ RefillCycle (s.cycle + BitVec.ofNat 3 k)) : t.bus = s.bus ∧ t.cursor.val = s.cursor.val :=
  ⟨ticks_hold (fun hst hc => (step_writes hst).bus.trans (if_neg hc)) h hno,
    ticks_hold (value := fun u => u.cursor.val) (fun hst hc => (step_writes hst).cursor.trans (if_neg hc)) h hno⟩

/-- Without an execute cycle `result` stands still. -/
theorem ticks_result_of_no_execute {n : Nat} {s t : State} (h : ticks n s = .next t)
    (hno : ∀ k < n, s.cycle + BitVec.ofNat 3 k ≠ 7#3) : t.result = s.result :=
  ticks_hold (writes := (· = 7#3)) (fun hst hc => (step_writes hst).result.trans (if_neg hc)) h hno

/-- A run whose last tick is at the cycle of a latch leaves in it the bus word that tick began with. -/
theorem exists_bus_of_last_latch {latch : State → Word} {c : BitVec 3}
    (hlatch : ∀ {u v : State}, step u = .next v → latch v = if u.cycle = c then u.bus else latch u) {n : Nat}
    {s t : State} (h : ticks (n + 1) s = .next t) (hc : s.cycle + BitVec.ofNat 3 n = c) :
    ∃ u, ticks n s = .next u ∧ latch t = u.bus := by
  obtain ⟨u, hu, hstep⟩ := ticks_succ_last h
  exact ⟨u, hu, (hlatch hstep).trans (if_pos ((ticks_cycle hu).trans hc))⟩

/-- From reset that word is counted by the refills of the ticks before. -/
theorem exists_latch_after_reset {latch : State → Word} {c : BitVec 3}
    (hlatch : ∀ {u v : State}, step u = .next v → latch v = if u.cycle = c then u.bus else latch u) (m : Memory)
    {n : Nat} (hc : BitVec.ofNat 3 n = c) :
    ∃ t, ticks (n + 1) (State.resetWith m) = .next t ∧ latch t = m.read (refills n 0#3 % m.progLen) := by
  obtain ⟨t, ht⟩ := exists_ticks (n + 1) (State.resetWith m)
  obtain ⟨u, hu, hbus⟩ := exists_bus_of_last_latch hlatch ht (by simp [hc])
  refine ⟨t, ht, hbus.trans ((ticks_bus (inv_resetWith m) hu).trans ?_)⟩
  simp [wordFrom]

/-! ### The statements -/

/-- Settles O40: each latch takes the bus at its own tick, and the first execute cycle is that of tick 8. -/
theorem firstTicksAfterReset : Obligations.FirstTicksAfterReset := by
  intro m
  have hopcode := exists_latch_after_reset (fun h => (step_writes h).opcode) m (n := 1) rfl
  have hopndA := exists_latch_after_reset (fun h => (step_writes h).operandA) m (n := 3) rfl
  have hopndB := exists_latch_after_reset (fun h => (step_writes h).operandB) m (n := 4) rfl
  have hword0 : refills 1 0#3 % m.progLen = 0 := Nat.zero_mod _
  have hexecute : ∀ k < 7, 0#3 + BitVec.ofNat 3 k ≠ 7#3 := by decide
  refine ⟨(step_at_idle (.inl rfl)).1, hword0 ▸ hopcode, hopndA, hopndB, fun n hn => ?_, ?_⟩
  · obtain ⟨t, ht⟩ := exists_ticks n (State.resetWith m)
    exact ⟨t, ht, ticks_result_of_no_execute ht fun k hk => hexecute k (hk.trans_le hn)⟩
  · rw [ticks_eight rfl, State.advanceCycle_at_7 rfl]
    exact ⟨_, rfl, rfl, by simp [wordFrom, Memory.first]⟩

/-- Settles O41: cycle 7 holds the latches its answer is computed from, and cycle 0 is idle. -/
theorem resultAgreesWithTheLatchesAfterExecute : Obligations.ResultAgreesWithTheLatchesAfterExecute := by
  intro s hc hrec
  obtain ⟨-, hexecute, -⟩ := cycleSevenWritesTheAluAnswer s hc
  rw [resultAfter_of_recognised hrec] at hexecute
  exact ⟨_, _, hexecute, (step_at_idle (.inl rfl)).1, rfl, rfl, rfl, rfl, rfl⟩

/-- Settles O42: cycles 5, 6, 7 and 0 do not refill, and the fifth tick is cycle 1. -/
theorem busIsSteadyUntilTheNextOpcodeLatch : Obligations.BusIsSteadyUntilTheNextOpcodeLatch := by
  intro s hc
  have hno : ∀ k < 4, ¬ RefillCycle (s.cycle + BitVec.ofNat 3 k) := by rw [hc]; decide
  have hsteady : ∀ {n t}, n ≤ 4 → ticks n s = .next t → t.bus = s.bus ∧ t.cursor.val = s.cursor.val :=
    fun hn h => ticks_bus_cursor_of_no_refill h fun k hk => hno k (hk.trans_le hn)
  refine ⟨fun n hn => ?_, ?_⟩
  · obtain ⟨t, ht⟩ := exists_ticks n s
    exact ⟨t, ht, hsteady hn ht⟩
  · obtain ⟨t, ht⟩ := exists_ticks 5 s
    obtain ⟨u, hu, hopcode⟩ := exists_bus_of_last_latch (fun h => (step_writes h).opcode) ht (by rw [hc]; rfl)
    exact ⟨t, ht, by rw [ticks_cycle ht, hc]; rfl, hopcode.trans (hsteady le_rfl hu).1⟩

/-- Settles O44: `PROG_LEN` instructions refill `3 * PROG_LEN` times, so the cursor comes round to where it was, and
the bus shows the word under it. -/
theorem instructionBoundariesRepeatAfterThreePasses : Obligations.InstructionBoundariesRepeatAfterThreePasses := by
  intro s hinv hc
  obtain ⟨t, ht⟩ := exists_ticks (8 * s.mem.progLen) s
  have hcycle : t.cycle = 0#3 := by simp [ticks_cycle ht, hc, BitVec.ofNat_mul]
  have hcursor : t.cursor.val = s.cursor.val := by
    rw [ticks_cursor ht, refills_eight_mul, Nat.add_mul_mod_self_right, Nat.mod_eq_of_lt s.cursor.isLt]
  exact ⟨t, ht, hcycle, hcursor, by rw [(inv_ticks hinv ht).busIsWord, hcursor, ticks_mem ht, ← hinv.busIsWord]⟩

/-- Settles O17: each part of `Reset` is the write R130 gives it. -/
theorem resetZeroesThenPrimesTheBus : Obligations.ResetZeroesThenPrimesTheBus :=
  fun _ => ⟨rfl, fun _ => rfl, rfl, rfl, (by decide : carryOf 0#5 = false), (by decide : valueOf 0#5 = 0#4)⟩

/-- Settles O19: a reset event depends on the program alone. -/
theorem resetEventForgetsTheRegisters : Obligations.ResetEventForgetsTheRegisters := by
  intro s t hmem
  rw [s.resetEvent_eq, t.resetEvent_eq, hmem]
  exact ⟨rfl, rfl⟩

end Sys2Proof.Machine
